-- ==== Sys2Proof/Word.lean ====
section
/-! DEFINITION. The machine word and the byte (spec 00_scope.md R9, 20_memory.md R41). -/

namespace Sys2Proof

/-- A word: 16 bits, bit 0 the least significant (00_scope.md R9).
Every register, every memory cell and every bus datum is one word. -/
abbrev Word := BitVec 16

/-- A byte: the two halves of control slot 1, the status slot (10_state.md R23, R26) and the loader's byte stream
(20_memory.md R42). -/
abbrev Byte := BitVec 8

end Sys2Proof
end

