-- ==== Sys2Proof/Config.lean ====
section
/-! DEFINITION. What is fixed for the life of the machine (00_scope.md R6 to R8) and the free values: the inputs that
10_state.md R31 leaves open, opaque constants of which nothing can be proved. -/

namespace Sys2Proof

/-! ## Numbering and mask parameters of 00_scope.md R7, at the values the spec decides -/

/-- Flag bit positions `FLAG_BITS` (10_state.md R15, decision D3): zero. -/
abbrev Config.bitZ : Nat := 0
/-- Negative (10_state.md R15). -/
abbrev Config.bitN : Nat := 1
/-- Carry (10_state.md R15). -/
abbrev Config.bitC : Nat := 2
/-- Overflow (10_state.md R15). -/
abbrev Config.bitV : Nat := 3
/-- Error (10_state.md R15). -/
abbrev Config.bitE : Nat := 4
/-- Signed mode (10_state.md R15). -/
abbrev Config.bitS : Nat := 5

/-- `PAGE_MASK`, the mask of ALU operation 14 (42_alu.md R160, decision D11). -/
abbrev Config.pageMask : Word := 0xFF00

/-! ## Parameters of one device -/

/-- The parameters of one Device, constant for the life of the hardware (00_scope.md R6). `connected` is the map of
10_state.md R30 from an index (1 to 255) to another device, which is named by its id. -/
structure DeviceParams where
  id : Word
  /-- `AW`: local memory has `2 ^ AW` words, none when `AW = 0`. -/
  addressWidth : Nat
  /-- Local addresses below `romEnd` are read-only. -/
  romEnd : Nat
  deviceType : Byte
  bankIndex : Byte
  connected : List (Byte × Word)
deriving DecidableEq, Repr

/-- The `halted` predicate that the platform states for a leaf device (00_scope.md R8, decision D25, U5): a constant
that the platform gives, or left open, then drawn afresh at every access (`Config.leafHalted`). -/
inductive HaltedPredicate where
  | fixed (b : Bool)
  | free
deriving DecidableEq, Repr

/-- What this model takes of a `DeviceKind` of a leaf device (00_scope.md R8): its halted predicate, and which of the
slots 6 to 15 have a read hook. A slot without a hook reads 0 (10_state.md R28). -/
structure LeafKind where
  halted : HaltedPredicate
  readHooks : List (BitVec 4)
deriving DecidableEq, Repr

/-- The parameters of the processor that `State.reset` describes.
DESIGN CHOICE (notes/assumptions/3.md): the spec leaves them to the platform; these are the ones of its own vectors
(95_test_vectors.md section 2.4: `AW = 16`, `romEnd = 0`, `id = 1`, no connected device). -/
def Config.processorParams : DeviceParams where
  id := 1
  addressWidth := 16
  romEnd := 0
  deviceType := 0
  bankIndex := 0
  connected := []

/-! ## Free values -/

/-- `irq_pending`, a free Boolean input of every step (10_state.md R31, 60_exceptions.md R205, U3), by draw number. -/
opaque Config.irqPending : Nat → Bool

/-- The `halted` predicate of a leaf device whose platform leaves it open (00_scope.md R8, U5), by device id and draw
number. -/
opaque Config.leafHalted : Word → Nat → Bool

/-- What the read hook of a leaf device answers (10_state.md R28, U6): any value, by device id, slot and draw number. -/
opaque Config.leafSlotRead : Word → BitVec 4 → Nat → Word

/-- The id of the processor that an unspecified schedule lets move next (20_memory.md R59, U7), by draw number. -/
opaque Config.nextProcessor : Nat → Word

end Sys2Proof
end

