-- ==== Sys2Proof/Syntax.lean ====
section
/-! DEFINITION. The instruction as syntax: the operand classes of 30_encoding.md R79, the effects of R78 and one
constructor per row of spec/opcode_table.json (R77). -/

namespace Sys2Proof

/-- The six general registers (10_state.md R12). -/
inductive Reg where
  | r1 | r2 | r3 | r4 | r5 | r6
deriving DecidableEq, Repr

/-- R1 to R3 as pointers address local memory, R4 to R6 the banked bus (10_state.md R13). -/
def Reg.isLocal : Reg → Bool
  | .r1 => true
  | .r2 => true
  | .r3 => true
  | .r4 => false
  | .r5 => false
  | .r6 => false

/-- A source operand: the sixteen source codes (30_encoding.md R79, 40_operands.md R91 to R98). `mem r` is the word
that register `r` points at (codes 1 to 3 and 9 to 11), `reg r` the register's value (codes 5 to 7 and 13 to 15). -/
inductive Source where
  | pc
  | mem (r : Reg)
  | imm
  | reg (r : Reg)
  | flags
  | ih
deriving DecidableEq, Repr

/-- A destination operand: the sixteen destination codes (30_encoding.md R79, 40_operands.md R101 to R112).
`flags4` is code 4, the second name of the flags register (code 8): R103, R109, R113. -/
inductive Dest where
  | pc
  | mem (r : Reg)
  | flags4
  | reg (r : Reg)
  | flags
  | ih
deriving DecidableEq, Repr

/-- The memory-class predicate on a source code (30_encoding.md R74). It also picks the unsigned 12-bit immediate:
`IMM12_UNSIGNED_SOURCES` at its decided value (R75, decision D36, notes/assumptions/13.md). -/
def Source.isMem : Source → Bool
  | .mem _ => true
  | .pc => false
  | .imm => false
  | .reg _ => false
  | .flags => false
  | .ih => false

/-- The memory-class predicate on a destination code (30_encoding.md R74). -/
def Dest.isMem : Dest → Bool
  | .mem _ => true
  | .pc => false
  | .flags4 => false
  | .reg _ => false
  | .flags => false
  | .ih => false

/-- The conditional-store selector (30_encoding.md R78). -/
inductive Effect where
  | onZero
  | onNotZero
  | onNegative
  | never
  | always
  | onOverflow
  | onError
  | onInterrupt
deriving DecidableEq, Repr

/-- The fields that every instruction carries beside its ALU code (30_encoding.md R71 to R76). -/
structure Fields where
  source : Source
  dest : Dest
  increment : Bool
  effect : Effect
  /-- `srcImm`, the assembled source immediate (R75). -/
  imm : Word
  /-- The signed 4-bit offset field of a memory-class destination; 0 for any other (R76). -/
  offset : BitVec 4
deriving DecidableEq, Repr

/-- The instructions: one constructor per ALU operation (30_encoding.md R77). -/
inductive Instr where
  | copy (f : Fields)
  | and (f : Fields)
  | or (f : Fields)
  | xor (f : Fields)
  | inv (f : Fields)
  | shl (f : Fields)
  | shr (f : Fields)
  | swap (f : Fields)
  | msb (f : Fields)
  | lsb (f : Fields)
  | add (f : Fields)
  | sub (f : Fields)
  | mul (f : Fields)
  | div (f : Fields)
  | page (f : Fields)
  | oand (f : Fields)
deriving DecidableEq, Repr

/-- The operand fields of an instruction. -/
def Instr.fields : Instr → Fields
  | .copy f => f
  | .and f => f
  | .or f => f
  | .xor f => f
  | .inv f => f
  | .shl f => f
  | .shr f => f
  | .swap f => f
  | .msb f => f
  | .lsb f => f
  | .add f => f
  | .sub f => f
  | .mul f => f
  | .div f => f
  | .page f => f
  | .oand f => f

end Sys2Proof
end

