-- ==== Sys2Proof/WellFormed.lean ====
section
/-! DEFINITION. Which instruction terms have an encoding: the immediate lies in the range of its form and the offset
stands only at a memory-class destination (30_encoding.md R75, R76, R83). The reserved combination of R81 is encodable
and so well formed; its step is refused (41_execute.md R125). -/

namespace Sys2Proof

/-- The immediate is one that word 2 can carry (30_encoding.md R75, R83): 0 to 4095 when both operands are
memory-class, -2048 to 2047 when only the destination is, any word otherwise. -/
def Fields.immFits (f : Fields) : Bool :=
  if f.dest.isMem then
    if f.source.isMem then (f.imm.extractLsb' 0 12).setWidth 16 == f.imm
    else (f.imm.extractLsb' 0 12).signExtend 16 == f.imm
  else true

/-- Only a memory-class destination has an offset field (30_encoding.md R76). -/
def Fields.offsetFits (f : Fields) : Bool :=
  f.dest.isMem || f.offset == 0

/-- The fields of an instruction that has an encoding (30_encoding.md R83). -/
def Fields.wellFormed (f : Fields) : Bool :=
  f.immFits && f.offsetFits

/-- An instruction that has an encoding (30_encoding.md R83). -/
abbrev Instr.WellFormed (i : Instr) : Prop :=
  i.fields.wellFormed = true

end Sys2Proof
end

