-- ==== Sys2Proof/Decode.lean ====
section
/-! DEFINITION. The two-word format of 30_encoding.md: decoding (R71 to R76, R79), which is total (R80), and the
encoder of R83. A stream of bytes is packed into words high byte first (20_memory.md R42). -/

namespace Sys2Proof

/-! ## Operand and effect codes (30_encoding.md R78, R79) -/

/-- The source operand of a 4-bit code (R79). -/
def Source.ofCode (c : BitVec 4) : Source :=
  match c.toNat with
  | 0 => .pc
  | 1 => .mem .r1
  | 2 => .mem .r2
  | 3 => .mem .r3
  | 4 => .imm
  | 5 => .reg .r1
  | 6 => .reg .r2
  | 7 => .reg .r3
  | 8 => .flags
  | 9 => .mem .r4
  | 10 => .mem .r5
  | 11 => .mem .r6
  | 12 => .ih
  | 13 => .reg .r4
  | 14 => .reg .r5
  | _ => .reg .r6  -- 15, the last 4-bit code

/-- The 4-bit code of a source operand (R79). -/
def Source.code : Source → BitVec 4
  | .pc => 0
  | .mem .r1 => 1
  | .mem .r2 => 2
  | .mem .r3 => 3
  | .imm => 4
  | .reg .r1 => 5
  | .reg .r2 => 6
  | .reg .r3 => 7
  | .flags => 8
  | .mem .r4 => 9
  | .mem .r5 => 10
  | .mem .r6 => 11
  | .ih => 12
  | .reg .r4 => 13
  | .reg .r5 => 14
  | .reg .r6 => 15

/-- The destination operand of a 4-bit code (R79). -/
def Dest.ofCode (c : BitVec 4) : Dest :=
  match c.toNat with
  | 0 => .pc
  | 1 => .mem .r1
  | 2 => .mem .r2
  | 3 => .mem .r3
  | 4 => .flags4
  | 5 => .reg .r1
  | 6 => .reg .r2
  | 7 => .reg .r3
  | 8 => .flags
  | 9 => .mem .r4
  | 10 => .mem .r5
  | 11 => .mem .r6
  | 12 => .ih
  | 13 => .reg .r4
  | 14 => .reg .r5
  | _ => .reg .r6  -- 15, the last 4-bit code

/-- The 4-bit code of a destination operand (R79). -/
def Dest.code : Dest → BitVec 4
  | .pc => 0
  | .mem .r1 => 1
  | .mem .r2 => 2
  | .mem .r3 => 3
  | .flags4 => 4
  | .reg .r1 => 5
  | .reg .r2 => 6
  | .reg .r3 => 7
  | .flags => 8
  | .mem .r4 => 9
  | .mem .r5 => 10
  | .mem .r6 => 11
  | .ih => 12
  | .reg .r4 => 13
  | .reg .r5 => 14
  | .reg .r6 => 15

/-- The effect of a 3-bit code (R78). -/
def Effect.ofCode (c : BitVec 3) : Effect :=
  match c with
  | 0 => .onZero
  | 1 => .onNotZero
  | 2 => .onNegative
  | 3 => .never
  | 4 => .always
  | 5 => .onOverflow
  | 6 => .onError
  | 7 => .onInterrupt

/-- The 3-bit code of an effect (R78). -/
def Effect.code : Effect → BitVec 3
  | .onZero => 0
  | .onNotZero => 1
  | .onNegative => 2
  | .never => 3
  | .always => 4
  | .onOverflow => 5
  | .onError => 6
  | .onInterrupt => 7

/-- The instruction of an ALU code, with given fields (30_encoding.md R77, `ALU_CODE_MAP` in listing order). -/
def Instr.ofAluCode (c : BitVec 4) (f : Fields) : Instr :=
  match c.toNat with
  | 0x0 => .copy f
  | 0x1 => .and f
  | 0x2 => .or f
  | 0x3 => .xor f
  | 0x4 => .inv f
  | 0x5 => .shl f
  | 0x6 => .shr f
  | 0x7 => .swap f
  | 0x8 => .msb f
  | 0x9 => .lsb f
  | 0xA => .add f
  | 0xB => .sub f
  | 0xC => .mul f
  | 0xD => .div f
  | 0xE => .page f
  | _ => .oand f  -- 0xF, the last 4-bit code

/-- The ALU code of an instruction (30_encoding.md R77). -/
def Instr.aluCode : Instr → BitVec 4
  | .copy _ => 0x0
  | .and _ => 0x1
  | .or _ => 0x2
  | .xor _ => 0x3
  | .inv _ => 0x4
  | .shl _ => 0x5
  | .shr _ => 0x6
  | .swap _ => 0x7
  | .msb _ => 0x8
  | .lsb _ => 0x9
  | .add _ => 0xA
  | .sub _ => 0xB
  | .mul _ => 0xC
  | .div _ => 0xD
  | .page _ => 0xE
  | .oand _ => 0xF

/-! ## Decoding -/

/-- `srcImm` from word 2 (30_encoding.md R75). -/
def decodeImm (source : Source) (dest : Dest) (word2 : Word) : Word :=
  if dest.isMem then
    if source.isMem then (word2.extractLsb' 0 12).setWidth 16
    else (word2.extractLsb' 0 12).signExtend 16
  else word2

/-- The offset field of word 2 (30_encoding.md R76). -/
def decodeOffset (dest : Dest) (word2 : Word) : BitVec 4 :=
  if dest.isMem then word2.extractLsb' 12 4 else 0

/-- The fields of the two words of an instruction (30_encoding.md R71 to R76). -/
def decodeFields (word1 word2 : Word) : Fields :=
  let source := Source.ofCode (word1.extractLsb' 12 4)
  let dest := Dest.ofCode (word1.extractLsb' 8 4)
  { source := source
    dest := dest
    increment := word1.getLsbD 7
    effect := Effect.ofCode (word1.extractLsb' 4 3)
    imm := decodeImm source dest word2
    offset := decodeOffset dest word2 }

/-- Decoding is total: every pair of words is an instruction (30_encoding.md R80). -/
def decode (word1 word2 : Word) : Instr :=
  Instr.ofAluCode (word1.extractLsb' 0 4) (decodeFields word1 word2)

/-- Why a finite stream holds no instruction at its head: it ends before the instruction's two words do
(30_encoding.md R70). Two words never fail to decode. -/
inductive DecodeError where
  | truncated
deriving DecidableEq, Repr

/-- The instruction at the head of a list of words, and the rest (30_encoding.md R70). -/
def decodeWords : List Word → Except DecodeError (Instr × List Word)
  | word1 :: word2 :: rest => .ok (decode word1 word2, rest)
  | [_] => .error .truncated
  | [] => .error .truncated

/-- The word of two bytes, high byte first (20_memory.md R42). -/
def packWord (high low : Byte) : Word := high ++ low

/-- The instruction at the head of a byte stream packed as the loader packs it, and the rest (20_memory.md R42). -/
def decodeBytes : List Byte → Except DecodeError (Instr × List Byte)
  | a :: b :: c :: d :: rest => .ok (decode (packWord a b) (packWord c d), rest)
  | [_, _, _] => .error .truncated
  | [_, _] => .error .truncated
  | [_] => .error .truncated
  | [] => .error .truncated

/-! ## Encoding (30_encoding.md R83) -/

/-- Word 1 of an instruction (R83). -/
def encodeWord1 (i : Instr) : Word :=
  i.fields.source.code ++ i.fields.dest.code ++ BitVec.ofBool i.fields.increment ++ i.fields.effect.code ++ i.aluCode

/-- Word 2 of an instruction (R83). -/
def encodeWord2 (i : Instr) : Word :=
  if i.fields.dest.isMem then i.fields.offset ++ i.fields.imm.extractLsb' 0 12 else i.fields.imm

/-- The two words of an instruction (R83). -/
def encode (i : Instr) : Word × Word :=
  (encodeWord1 i, encodeWord2 i)

/-! ## The opcode table's numbering of an instruction's bits -/

/-- Word 1 and word 2 of the 32-bit value that spec/opcode_table.json numbers: word 1 in bits 31:16, word 2 in bits
15:0 (30_encoding.md R70, the table's "layout"; notes/assumptions/14.md). Bits from `nbits` up are 0. -/
def tableWords (nbits w : Nat) : Word × Word :=
  (BitVec.ofNat 16 (w % 2 ^ nbits / 65536), BitVec.ofNat 16 (w % 2 ^ nbits))

/-- The instruction that the decoder reads from the bits `w` of a row of spec/opcode_table.json. No row is longer than
the 32 bits of the one instruction format (30_encoding.md R70). -/
def decodeTableWord (nbits w : Nat) : Option Instr :=
  if nbits ≤ 32 then some (decode (tableWords nbits w).1 (tableWords nbits w).2) else none

end Sys2Proof
end

