-- ==== Sys2Proof/Machine/State.lean ====
section
/-! DEFINITION. The state of the composed system as plain data: the processor whose turn it is, every other device,
and the model's own draw counter; the reset state; the reasons for which a step can stop.

A system is any number of devices, processors among them (60_exceptions.md R215). `State` names the processor that
takes the next step apart from the others (`dev`, `core`), so that an instruction acts on named fields; `others` holds
the rest, each with its own device state and, if it is a processor, its own registers. The order of `others` means
nothing: devices are found by id. -/

namespace Sys2Proof.Machine

open Sys2Proof

/-- The words of a local memory, by index: address and word, addresses strictly rising, no entry holding the 0 that an
unlisted index reads as (10_state.md R19, 70_reset_and_hazards.md R222, notes/assumptions/1.md and 2.md). The cell is
the word, the hardware's smallest addressable unit (20_memory.md R41). -/
abbrev Memory := List (Nat × Word)

/-- The canonical form of a memory: indices strictly rising and no stored 0. Equal memories are then equal lists. -/
abbrev Memory.wf (m : Memory) : Prop :=
  m.Pairwise (fun x y => x.1 < y.1) ∧ ∀ x ∈ m, x.2 ≠ 0

/-- The run state (10_state.md R18). -/
inductive RunState where
  | running
  | halted (code : Word)
deriving DecidableEq, Repr

/-- The registers that a Processor adds to a Device (10_state.md R10). Its interrupt-handler register `ih` is the
device's control slot 5, `Device.handler`: one storage (10_state.md R17, R27). -/
structure Core where
  /-- General registers (10_state.md R12). -/
  r1 : Word
  r2 : Word
  r3 : Word
  r4 : Word
  r5 : Word
  r6 : Word
  /-- Address of the current instruction (10_state.md R14). -/
  pc : Word
  /-- Address that retirement copies to `pc` (10_state.md R14). -/
  next : Word
  /-- Flags register (10_state.md R15). -/
  flags : Word
  /-- Overflow register (10_state.md R16). -/
  oflow : Word
  /-- Run state (10_state.md R18). -/
  run : RunState
deriving DecidableEq, Repr

/-- The state of any Device (10_state.md R19 to R27). Slots 0 and 1 are parameters (R22, R23). -/
structure Device where
  params : DeviceParams
  /-- Slot 2 (10_state.md R24). -/
  initDevice : Word
  /-- Slot 3 (10_state.md R25). -/
  mappedBlock : Word
  /-- Slot 4, a byte (10_state.md R26). -/
  status : Byte
  /-- Slot 5 (10_state.md R27); in a processor the register `ih`. -/
  handler : Word
  /-- Local memory (10_state.md R19). -/
  mem : Memory
deriving DecidableEq, Repr

/-- A device is a leaf of some kind or a processor with its registers (00_scope.md R2, R8). -/
inductive Kind where
  | leaf (k : LeafKind)
  | processor (c : Core)
deriving DecidableEq, Repr

/-- A device of the system with its kind. -/
structure Node where
  dev : Device
  kind : Kind
deriving DecidableEq, Repr

/-- The composed system (60_exceptions.md R215): the processor whose turn it is (`dev`, `core`), every other device
(`others`), and `draws`, the model's own counter by which each free value is drawn once (notes/assumptions/8.md). -/
structure State where
  dev : Device
  core : Core
  others : List Node
  draws : Nat
deriving DecidableEq, Repr

/-- The reasons for which the machine stops. -/
inductive Fault where
  /-- Raised by `step` when the processor whose turn it is has halted and no other processor of the system runs:
  a halted processor has no step (41_execute.md R120, 93_implementation_defined.md U15). `code` is the halt code.
  Safe: nothing is claimed of what comes after. -/
  | halted (code : Word)
deriving DecidableEq, Repr

/-- The reasons for which a step has no meaning. -/
inductive Refusal where
  /-- Raised by a refused arm of `exec` for an instruction whose meaning is not written; no arm does. Safe. -/
  | notModelled (mnemonic : String)
  /-- `refuse(reserved_increment)`: raised by every instruction with `increment = 1` and no memory-class operand, the
  combination the spec reserves (30_encoding.md R81, 60_exceptions.md R218, decision D16). Safe. -/
  | reservedIncrement
deriving DecidableEq, Repr

/-! ## Reset (70_reset_and_hazards.md R220 to R222) -/

/-- A processor's registers at reset (R220, decision D27): zero, entry at local address 0. -/
def Core.reset : Core where
  r1 := 0
  r2 := 0
  r3 := 0
  r4 := 0
  r5 := 0
  r6 := 0
  pc := 0
  next := 2
  flags := 0
  oflow := 0
  run := .running

/-- A device at reset with a given memory (R220): unclaimed, slots 3 to 5 zero. -/
def Device.reset (params : DeviceParams) (mem : Memory) : Device where
  params := params
  initDevice := 0
  mappedBlock := 0
  status := 0
  handler := 0
  mem := mem

/-- The machine right after reset, no program loaded: one processor, alone on its bus (`Config.processorParams`), its
memory all zero. `construct` (Machine/Boot.lean) builds the reset state of any platform with its program images. -/
def State.reset : State where
  dev := Device.reset Config.processorParams []
  core := Core.reset
  others := []
  draws := 0

end Sys2Proof.Machine
end

