-- ==== Sys2Proof/Machine/Ops.lean ====
section
/-! DEFINITION. The named operations over memory, registers and the sequencer's state (20_memory.md R43 to R45,
41_execute.md R128, R131, R132). There is no trap to take and none to return from (60_exceptions.md R200, R209, R210);
the halt of R131 is the only event beside retirement. -/

namespace Sys2Proof.Machine

open Sys2Proof

/-! ## Memory -/

/-- The word at an index; an unlisted index holds 0 (70_reset_and_hazards.md R222). -/
def Memory.read : Memory → Nat → Word
  | [], _ => 0
  | (k, w) :: m, i => if i = k then w else Memory.read m i

/-- The entry of an index taken out. -/
def Memory.erase (m : Memory) (i : Nat) : Memory :=
  m.filter (fun x => x.1 != i)

/-- The entry of an index put in at its place. -/
def Memory.insert : Memory → Nat → Word → Memory
  | [], i, v => [(i, v)]
  | (k, w) :: m, i, v =>
    if i < k then (i, v) :: (k, w) :: m
    else if i = k then (i, v) :: m
    else (k, w) :: Memory.insert m i v

/-- The memory with one word written; writing the 0 that an unlisted index reads as takes the entry out. -/
def Memory.write (m : Memory) (i : Nat) (v : Word) : Memory :=
  if v = 0 then m.erase i else m.insert i v

/-- Words placed at consecutive indices from `i` up (70_reset_and_hazards.md R222). -/
def Memory.ofWordsFrom : Nat → List Word → Memory
  | _, [] => []
  | i, w :: ws => if w = 0 then Memory.ofWordsFrom (i + 1) ws else (i, w) :: Memory.ofWordsFrom (i + 1) ws

/-! ## Local access -/

/-- How many words the local memory has: `2 ^ AW`, none when `AW = 0` (10_state.md R19). -/
def Device.memSize (d : Device) : Nat :=
  if d.params.addressWidth = 0 then 0 else 2 ^ d.params.addressWidth

/-- The index that a local address names: the address modulo `2 ^ AW` (20_memory.md R43). -/
def Device.index (d : Device) (a : Word) : Nat :=
  a.toNat % 2 ^ d.params.addressWidth

/-- `MemRead` on a device's local memory (20_memory.md R44). -/
def Device.load (d : Device) (a : Word) : Word :=
  if d.params.addressWidth = 0 then 0 else d.mem.read (d.index a)

/-- `MemWrite` on a device's local memory (20_memory.md R45): dropped without local memory and in the ROM region. -/
def Device.store (d : Device) (a : Word) (v : Word) : Device :=
  if d.params.addressWidth = 0 then d
  else if d.index a < d.params.romEnd then d
  else { d with mem := d.mem.write (d.index a) v }

/-! ## Registers -/

/-- Read a general register (10_state.md R12). -/
def Core.reg (c : Core) : Reg → Word
  | .r1 => c.r1
  | .r2 => c.r2
  | .r3 => c.r3
  | .r4 => c.r4
  | .r5 => c.r5
  | .r6 => c.r6

/-- Write a general register (10_state.md R12). -/
def Core.setReg (c : Core) (r : Reg) (v : Word) : Core :=
  match r with
  | .r1 => { c with r1 := v }
  | .r2 => { c with r2 := v }
  | .r3 => { c with r3 := v }
  | .r4 => { c with r4 := v }
  | .r5 => { c with r5 := v }
  | .r6 => { c with r6 := v }

/-- Write a general register of the executing processor. -/
def State.setReg (s : State) (r : Reg) (v : Word) : State :=
  { s with core := s.core.setReg r v }

/-- Write `next`, the address of the coming instruction (40_operands.md R107). -/
def State.setNext (s : State) (v : Word) : State :=
  { s with core := { s.core with next := v } }

/-- Write the flags register whole (40_operands.md R109). -/
def State.setFlags (s : State) (v : Word) : State :=
  { s with core := { s.core with flags := v } }

/-- Write the interrupt-handler register (40_operands.md R112). -/
def State.setHandler (s : State) (v : Word) : State :=
  { s with dev := { s.dev with handler := v } }

/-- Write a word of the executing processor's own memory. -/
def State.storeLocal (s : State) (a v : Word) : State :=
  { s with dev := s.dev.store a v }

/-- Latch what the ALU gives beside the result: flags and overflow register (41_execute.md R128). -/
def State.latch (s : State) (flags oflow : Word) : State :=
  { s with core := { s.core with flags := flags, oflow := oflow } }

/-- Use up one draw of the free values. -/
def State.tick (s : State) : State :=
  { s with draws := s.draws + 1 }

/-! ## Retirement and halt -/

/-- Step 6: `pc <- next`, then `next <- pc + 2` with the new `pc` (41_execute.md R132). -/
def Core.retire (c : Core) : Core :=
  { c with pc := c.next, next := c.next + 2 }

/-- Retire the executing processor's instruction. Each step takes its free values from fresh draws
(10_state.md R31). -/
def State.retire (s : State) : State :=
  { s with core := s.core.retire, draws := s.draws + 1 }

/-- Enter `HALTED(code)` with the local word at `R[1]` as the code (41_execute.md R131). -/
def State.halt (s : State) : State :=
  { s with core := { s.core with run := .halted (s.dev.load s.core.r1) } }

end Sys2Proof.Machine
end

