-- ==== Sys2Proof/Machine/Flags.lean ====
section
/-! DEFINITION. The flag computations of 42_alu.md (R141 to R145) and the store decision of 41_execute.md R129. -/

namespace Sys2Proof.Machine

open Sys2Proof

/-- What the ALU answers (42_alu.md R140): the result, the new flags, the new overflow register. -/
structure AluOut where
  result : Word
  flags : Word
  oflow : Word
deriving DecidableEq, Repr

/-- An ALU operation: source value, destination value, flags, overflow register (42_alu.md R140). -/
abbrev AluOp := Word → Word → Word → Word → AluOut

/-- A word with one bit set to a given value. -/
def putBit (x : Word) (i : Nat) (b : Bool) : Word :=
  if b then x ||| BitVec.twoPow 16 i else x &&& ~~~BitVec.twoPow 16 i

/-- The common flag rule: Z and N from the result, C from bit 0 of the overflow register after the operation
(42_alu.md R141). -/
def commonFlags (F r oflow' : Word) : Word :=
  putBit (putBit (putBit F Config.bitZ (r == 0)) Config.bitN (r.getLsbD 15)) Config.bitC (oflow'.getLsbD 0)

/-- An operation that writes Z, N and C and leaves the overflow register (42_alu.md R142). -/
def plainOut (r F O : Word) : AluOut :=
  { result := r, flags := commonFlags F r O, oflow := O }

/-- An operation that writes the overflow register and Z, N, C (42_alu.md R142). -/
def wideOut (r oflow' F : Word) : AluOut :=
  { result := r, flags := commonFlags F r oflow', oflow := oflow' }

/-- The same with V written too (42_alu.md R142, R143). -/
def wideOutV (r oflow' F : Word) (v : Bool) : AluOut :=
  { result := r, flags := putBit (commonFlags F r oflow') Config.bitV v, oflow := oflow' }

/-- The signed mode bit (42_alu.md R145). -/
def signedMode (F : Word) : Bool := F.getLsbD Config.bitS

/-- V of ADD (42_alu.md R143). -/
def addOverflow (s d r : Word) : Bool :=
  s.getLsbD 15 == d.getLsbD 15 && r.getLsbD 15 != d.getLsbD 15

/-- V of SUB, the true signed overflow of `d - s` (42_alu.md R143; `SUB_OVERFLOW_RULE = true_signed`, decision D35,
notes/assumptions/12.md). -/
def subOverflow (s d r : Word) : Bool :=
  s.getLsbD 15 != d.getLsbD 15 && r.getLsbD 15 != d.getLsbD 15

/-- V of MUL: in signed mode, the high word is not the sign extension of the low word; 0 in unsigned mode
(42_alu.md R143, decision D9). -/
def mulOverflow (signed : Bool) (r oflow' : Word) : Bool :=
  signed && oflow' != (if r.getLsbD 15 then 0xFFFF else 0)

end Sys2Proof.Machine

namespace Sys2Proof

/-- The store decision on the flags after the ALU's update; `irq` is the sampled `irq_pending` (41_execute.md R129). -/
def Effect.stores (e : Effect) (F : Word) (irq : Bool) : Bool :=
  match e with
  | .onZero => F.getLsbD Config.bitZ
  | .onNotZero => !F.getLsbD Config.bitZ
  | .onNegative => F.getLsbD Config.bitN
  | .never => false
  | .always => true
  | .onOverflow => F.getLsbD Config.bitV
  | .onError => F.getLsbD Config.bitE
  | .onInterrupt => irq

end Sys2Proof
end

