-- ==== Sys2Proof/Machine/Bus.lean ====
section
/-! DEFINITION. The device bus: the device side (43_device_bus.md R170 to R188) and the processor side, the split of a
bus address and the banked read and write (20_memory.md R47 to R49). An access never faults and never blocks (R50).
`draw` is the number by which an access takes its free values: the open `halted` predicate and the read hooks of a
leaf device. -/

namespace Sys2Proof.Machine

open Sys2Proof

/-! ## The gate -/

/-- The id of a device (10_state.md R22). -/
def Node.id (n : Node) : Word := n.dev.params.id

/-- Whether a run state is `HALTED` (10_state.md R18). -/
def RunState.isHalted : RunState → Bool
  | .running => false
  | .halted _ => true

/-- The halted predicate of a device: the run state of a processor (10_state.md R18), for a leaf device what its
platform states (00_scope.md R8, decision D25). -/
def Node.halted (n : Node) (draw : Nat) : Bool :=
  match n.kind with
  | .processor c => c.run.isHalted
  | .leaf k =>
    match k.halted with
    | .fixed b => b
    | .free => Config.leafHalted n.id draw

/-- A foreign access is let in only from the init device of a claimed, halted device (43_device_bus.md R171). -/
def Node.admitsInit (n : Node) (src : Word) (draw : Nat) : Bool :=
  n.dev.initDevice != 0 && src == n.dev.initDevice && n.halted draw

/-- The gate: the owner, or the init device while the device is halted (43_device_bus.md R171). -/
def Node.admits (n : Node) (src : Word) (draw : Nat) : Bool :=
  src == n.id || n.admitsInit src draw

/-- The stricter gate of a processor's slots 6 to 15: the owner is not let in (43_device_bus.md R179). -/
def Node.admitsIntrospection (n : Node) (src : Word) (draw : Nat) : Bool :=
  src != n.id && n.admitsInit src draw

/-! ## Control reads -/

/-- Slots 0 to 5, the same in every device (43_device_bus.md R172, 10_state.md R22 to R27). -/
def Device.slotRead (d : Device) (slot : BitVec 4) : Word :=
  match slot.toNat with
  | 0 => d.params.id
  | 1 => d.params.bankIndex ++ d.params.deviceType
  | 2 => d.initDevice
  | 3 => d.mappedBlock
  | 4 => d.status.setWidth 16
  | 5 => d.handler
  | _ => 0

/-- Slots 6 to 15 of a processor (10_state.md R29, 43_device_bus.md R179): memory size, the pending-interrupt pointer
(reads 0), pc, R1 to R6, and the reserved slot 15 (reads 0). -/
def Core.slotRead (c : Core) (d : Device) (slot : BitVec 4) : Word :=
  match slot.toNat with
  | 6 => BitVec.ofNat 16 (2 ^ d.params.addressWidth)
  | 8 => c.pc
  | 9 => c.r1
  | 10 => c.r2
  | 11 => c.r3
  | 12 => c.r4
  | 13 => c.r5
  | 14 => c.r6
  | _ => 0

/-- Slots 6 to 15 of a leaf device: a read hook answers any value, a slot without one reads 0 (10_state.md R28, U6). -/
def leafSlotRead (k : LeafKind) (id : Word) (slot : BitVec 4) (draw : Nat) : Word :=
  if slot ∈ k.readHooks then Config.leafSlotRead id slot draw else 0

/-- `DevCtlRead` (43_device_bus.md R172). A dropped read answers 0. -/
def Node.ctlRead (n : Node) (src : Word) (slot : BitVec 4) (draw : Nat) : Word :=
  match n.kind with
  | .processor c =>
    if 6 ≤ slot.toNat then
      if n.admitsIntrospection src draw then c.slotRead n.dev slot else 0
    else if n.admits src draw then n.dev.slotRead slot
    else 0
  | .leaf k =>
    if n.admits src draw then
      if 6 ≤ slot.toNat then leafSlotRead k n.id slot draw else n.dev.slotRead slot
    else 0

/-! ## Control writes -/

/-- `Slot2Write`: the claim of an unclaimed device by a foreign writer, whose id is stored; then only the init device of
a halted device rewrites the slot (43_device_bus.md R174, R175). -/
def Node.claimWrite (n : Node) (src v : Word) (draw : Nat) : Node :=
  if src != n.id && n.dev.initDevice == 0 then { n with dev := { n.dev with initDevice := src } }
  else if src != n.id && src == n.dev.initDevice && n.halted draw then { n with dev := { n.dev with initDevice := v } }
  else n

/-- Slots 0, 1 and 3 to 5 written after the gate: 0 and 1 are read-only (43_device_bus.md R173, R176, R177). -/
def Device.slotWrite (d : Device) (slot : BitVec 4) (v : Word) : Device :=
  match slot.toNat with
  | 3 => { d with mappedBlock := v }
  | 4 => { d with status := v.setWidth 8 }
  | 5 => { d with handler := v }
  | _ => d

/-- Slots 6 to 15 of a processor written after the gate (43_device_bus.md R180): pc, which also resets `next`, and R1
to R6; 6, 7 and 15 ignore writes. -/
def Core.slotWrite (c : Core) (slot : BitVec 4) (v : Word) : Core :=
  match slot.toNat with
  | 8 => { c with pc := v, next := v + 2 }
  | 9 => { c with r1 := v }
  | 10 => { c with r2 := v }
  | 11 => { c with r3 := v }
  | 12 => { c with r4 := v }
  | 13 => { c with r5 := v }
  | 14 => { c with r6 := v }
  | _ => c

/-- `DevCtlWrite` (43_device_bus.md R173). A dropped write does nothing. The write hook of a leaf device changes only
its private buffers (R178, R188), which the draws of its read hook leave open. -/
def Node.ctlWrite (n : Node) (src : Word) (slot : BitVec 4) (v : Word) (draw : Nat) : Node :=
  if slot = 2 then n.claimWrite src v draw
  else
    match n.kind with
    | .processor c =>
      if 6 ≤ slot.toNat then
        if n.admitsIntrospection src draw then { n with kind := .processor (c.slotWrite slot v) } else n
      else if n.admits src draw then { n with dev := n.dev.slotWrite slot v }
      else n
    | .leaf _ => if n.admits src draw then { n with dev := n.dev.slotWrite slot v } else n

/-! ## Block space -/

/-- The local address of word `w` of a device's window (43_device_bus.md R181): `(mappedBlock << 8) | w`. -/
def Device.windowAddr (d : Device) (w : Byte) : Word :=
  d.mappedBlock.extractLsb' 0 8 ++ w

/-- `DevBlockRead` (43_device_bus.md R181). -/
def Node.blockRead (n : Node) (src : Word) (w : Byte) (draw : Nat) : Word :=
  if n.admits src draw then n.dev.load (n.dev.windowAddr w) else 0

/-- `DevBlockWrite` (43_device_bus.md R182). -/
def Node.blockWrite (n : Node) (src : Word) (w : Byte) (v : Word) (draw : Nat) : Node :=
  if n.admits src draw then { n with dev := n.dev.store (n.dev.windowAddr w) v } else n

/-! ## The processor side -/

/-- Where a bus address leads (20_memory.md R47): the issuer's own control slots, a control slot of the device at an
index, a word of the window of the device at an index. -/
inductive BusTarget where
  | own (slot : BitVec 4)
  | control (index : Byte) (slot : BitVec 4)
  | block (index : Byte) (word : Byte)
deriving DecidableEq, Repr

/-- The split of a bus address (20_memory.md R47). -/
def busTarget (a : Word) : BusTarget :=
  if a.toNat < 4096 then
    if a.extractLsb' 4 8 = 0 then .own (a.extractLsb' 0 4)
    else .control (a.extractLsb' 4 8) (a.extractLsb' 0 4)
  else .block (a.extractLsb' 8 8) (a.extractLsb' 0 8)

/-- The executing processor as a device of the system. -/
def State.selfNode (s : State) : Node := { dev := s.dev, kind := .processor s.core }

/-- The executing processor taken back from its device form. -/
def State.putSelf (s : State) (n : Node) : State :=
  match n.kind with
  | .processor c => { s with dev := n.dev, core := c }
  | .leaf _ => s

/-- The device of an id. -/
def findNode (id : Word) : List Node → Option Node
  | [] => none
  | n :: ns => if n.id = id then some n else findNode id ns

/-- The devices with the one of an id changed. -/
def updateNode (id : Word) (f : Node → Node) : List Node → List Node
  | [] => []
  | n :: ns => if n.id = id then f n :: ns else n :: updateNode id f ns

/-- The id that the executing processor's `connected` map gives an index; index 0 is never in the map
(10_state.md R30). -/
def State.connectedId (s : State) (index : Byte) : Option Word :=
  if index = 0 then none else s.dev.params.connected.lookup index

/-- The device connected at an index (43_device_bus.md R184: one level, nothing is forwarded below it). -/
def State.deviceAt (s : State) (index : Byte) : Option Node :=
  match s.connectedId index with
  | none => none
  | some id => findNode id s.others

/-- `BusRead`, with the state after it: an access that reaches a connected device uses up a draw, since it may have a
side effect on that device's private buffers (20_memory.md R48, R51). An absent device reads 0 (43_device_bus.md
R183). -/
def State.busRead (s : State) (a : Word) : Word × State :=
  match busTarget a with
  | .own slot => (s.selfNode.ctlRead s.dev.params.id slot s.draws, s)
  | .control index slot =>
    match s.deviceAt index with
    | none => (0, s)
    | some n => (n.ctlRead s.dev.params.id slot s.draws, s.tick)
  | .block index word =>
    match s.deviceAt index with
    | none => (0, s)
    | some n => (n.blockRead s.dev.params.id word s.draws, s.tick)

/-- The devices after a write by the executing processor that reaches the one at an index. -/
def State.updateAt (s : State) (index : Byte) (f : Node → Node) : State :=
  match s.connectedId index with
  | none => s
  | some id =>
    match findNode id s.others with
    | none => s
    | some _ => { s with others := updateNode id f s.others, draws := s.draws + 1 }

/-- `BusWrite` (20_memory.md R49). A write to an absent device does nothing (43_device_bus.md R183). -/
def State.busWrite (s : State) (a v : Word) : State :=
  match busTarget a with
  | .own slot => s.putSelf (s.selfNode.ctlWrite s.dev.params.id slot v s.draws)
  | .control index slot => s.updateAt index (fun n => n.ctlWrite s.dev.params.id slot v s.draws)
  | .block index word => s.updateAt index (fun n => n.blockWrite s.dev.params.id word v s.draws)

end Sys2Proof.Machine
end

