-- ==== Sys2Proof/Machine/Operands.lean ====
section
/-! DEFINITION. The operands: what each of the sixteen codes reads as a source (40_operands.md R91 to R98), reads as a
destination (R101 to R106) and does when it is written (R107 to R112), with push and pop (R99, R100). -/

namespace Sys2Proof

/-- The push request (40_operands.md R99). -/
def Fields.push (f : Fields) : Bool :=
  f.increment && f.dest.isMem

/-- The pop request (40_operands.md R100). -/
def Fields.pop (f : Fields) : Bool :=
  f.increment && !f.dest.isMem && f.source.isMem

/-- The reserved combination: increment with no memory-class operand (30_encoding.md R81). -/
def Fields.reserved (f : Fields) : Bool :=
  f.increment && !f.dest.isMem && !f.source.isMem

/-- The destination offset `dstOff`: 0 where there is no offset field (30_encoding.md R76). -/
def Fields.dstOff (f : Fields) : Word :=
  if f.dest.isMem then f.offset.signExtend 16 else 0

end Sys2Proof

namespace Sys2Proof.Machine

open Sys2Proof

/-- The word that a register points at: R1 to R3 in local memory, R4 to R6 on the bus (10_state.md R13), with the state
after the read. -/
def State.pointerRead (s : State) (r : Reg) (a : Word) : Word × State :=
  if r.isLocal then (s.dev.load a, s) else s.busRead a

/-- The write to where a register points. -/
def State.pointerWrite (s : State) (r : Reg) (a v : Word) : State :=
  if r.isLocal then s.storeLocal a v else s.busWrite a v

/-- The address of a source operand in memory (40_operands.md R92, R96). -/
def State.srcAddr (s : State) (f : Fields) (r : Reg) : Word :=
  s.core.reg r + f.imm

/-- `DstAddr`, the address of a destination operand in memory, one lower with push (40_operands.md R99). -/
def State.dstAddr (s : State) (f : Fields) (r : Reg) : Word :=
  s.core.reg r + f.dstOff - (if f.push then 1 else 0)

/-- `SrcValue`, with the state after the read (40_operands.md R91 to R98; no immediate is added to
`flags` and `ih`, decision D12). -/
def State.srcRead (s : State) (f : Fields) : Word × State :=
  match f.source with
  | .pc => (s.core.pc + f.imm, s)
  | .mem r => s.pointerRead r (s.srcAddr f r)
  | .imm => (f.imm, s)
  | .reg r => (s.core.reg r + f.imm, s)
  | .flags => (s.core.flags, s)
  | .ih => (s.dev.handler, s)

/-- `DstValue`, with the state after the read (40_operands.md R101 to R106). -/
def State.dstRead (s : State) (f : Fields) : Word × State :=
  match f.dest with
  | .pc => (s.core.pc, s)
  | .mem r => s.pointerRead r (s.dstAddr f r)
  | .flags4 => (s.core.flags, s)
  | .reg r => (s.core.reg r, s)
  | .flags => (s.core.flags, s)
  | .ih => (s.dev.handler, s)

/-- `DstWrite`, with the push decrement (40_operands.md R107 to R112). -/
def State.dstWrite (s : State) (f : Fields) (v : Word) : State :=
  match f.dest with
  | .pc => s.setNext v
  | .mem r =>
    let t := s.pointerWrite r (s.dstAddr f r) v
    if f.push then t.setReg r (t.core.reg r - 1) else t
  | .flags4 => s.setFlags v
  | .reg r => s.setReg r v
  | .flags => s.setFlags v
  | .ih => s.setHandler v

/-- The pop increment: the register of the source, as it stands after the destination write (41_execute.md R134). -/
def State.popAdjust (s : State) (f : Fields) : State :=
  match f.source with
  | .mem r => if f.pop then s.setReg r (s.core.reg r + 1) else s
  | .pc => s
  | .imm => s
  | .reg _ => s
  | .flags => s
  | .ih => s

end Sys2Proof.Machine
end

