-- ==== Sys2Proof/Machine/Execute.lean ====
section
/-! DEFINITION. The six steps of execute, shared by all sixteen instructions (41_execute.md R126 to R132, R139). -/

namespace Sys2Proof.Machine

open Sys2Proof

/-- Steps 1 and 2: the source value, the destination value, and the state after the two reads, in that order
(41_execute.md R126, R127). -/
def State.readOperands (s : State) (f : Fields) : Word × Word × State :=
  let a := s.srcRead f
  let b := a.2.dstRead f
  (a.1, b.1, b.2)

/-- The source value `s` of an instruction (41_execute.md R126). -/
def State.srcValue (s : State) (f : Fields) : Word := (s.readOperands f).1

/-- The destination value `d` of an instruction (41_execute.md R127). -/
def State.dstValue (s : State) (f : Fields) : Word := (s.readOperands f).2.1

/-- The state after both operand reads. -/
def State.afterReads (s : State) (f : Fields) : State := (s.readOperands f).2.2

/-- Whether the result is stored, on the flags after the ALU's update, with `irq_pending` sampled now
(41_execute.md R129). -/
def State.stores (s : State) (f : Fields) : Bool :=
  f.effect.stores s.core.flags (Config.irqPending s.draws)

/-- The self-jump: a stored result of a pc-to-pc instruction equal to its own address (41_execute.md R131). -/
def State.isSelfJump (s : State) (f : Fields) (r : Word) : Bool :=
  f.source == .pc && f.dest == .pc && r == s.core.pc

/-- Steps 4 to 6 on the ALU's answer: decide, store with push and pop, retire, halt on a self-jump
(41_execute.md R128 to R132, in the order of R139). -/
def State.finish (s : State) (f : Fields) (out : AluOut) : State :=
  let t := s.latch out.flags out.oflow
  if t.stores f then
    let u := ((t.dstWrite f out.result).popAdjust f).retire
    if t.isSelfJump f out.result then u.halt else u
  else t.retire

/-- One instruction whose ALU operation is `op` (41_execute.md R139). The reserved combination is refused before any
operand is touched (R125). -/
def execute (op : AluOp) (f : Fields) (s : State) : Host.Outcome State Fault Refusal :=
  if f.reserved then .refused .reservedIncrement
  else
    let t := s.afterReads f
    .next (t.finish f (op (s.srcValue f) (s.dstValue f) t.core.flags t.core.oflow))

end Sys2Proof.Machine
end

