-- ==== Sys2Proof/Machine/Arith.lean ====
section
/-! DEFINITION. The arithmetic operations ADD, SUB, MUL and DIV: computed on exact integers, the result and the overflow
register cut back to 16 bits at the end (42_alu.md R156 to R159). -/

namespace Sys2Proof.Machine

open Sys2Proof

/-- ADD: `u(d) + u(s)`, the carry out in the overflow register (R156, decision D7). -/
def aluAdd : AluOp := fun s d F _ =>
  let W := d.toNat + s.toNat
  let r := BitVec.ofNat 16 W
  wideOutV r (BitVec.ofNat 16 (W / 65536)) F (addOverflow s d r)

/-- SUB: `u(d) - u(s)`, the high word of the difference in the overflow register (R157, decisions D5 and D7). -/
def aluSub : AluOp := fun s d F _ =>
  let W : Int := (d.toNat : Int) - (s.toNat : Int)
  let r := BitVec.ofInt 16 W
  wideOutV r (BitVec.ofInt 16 (W.fdiv 65536)) F (subOverflow s d r)

/-- MUL: the exact product, signed in signed mode, the high word in the overflow register (R158, decision D9). -/
def aluMul : AluOp := fun s d F _ =>
  let P : Int := if signedMode F then d.toInt * s.toInt else (d.toNat : Int) * (s.toNat : Int)
  let r := BitVec.ofInt 16 P
  let high := BitVec.ofInt 16 (P.fdiv 65536)
  wideOutV r high F (mulOverflow (signedMode F) r high)

/-- DIV: `d / s`, rounded toward zero, the remainder in the overflow register; a zero divisor leaves the dividend as the
result and the overflow register alone, and sets E, which any other divisor clears (R159, R144, decision D10). -/
def aluDiv : AluOp := fun s d F O =>
  if s = 0 then plainOut d (putBit F Config.bitE true) O
  else
    let a : Int := if signedMode F then d.toInt else (d.toNat : Int)
    let b : Int := if signedMode F then s.toInt else (s.toNat : Int)
    let q := a.tdiv b
    wideOut (BitVec.ofInt 16 q) (BitVec.ofInt 16 (a - q * b)) (putBit F Config.bitE false)

/-- ADD, ALU code 10 (42_alu.md R156). -/
def execAdd (f : Fields) (s : State) : Host.Outcome State Fault Refusal := execute aluAdd f s

/-- SUB, ALU code 11 (42_alu.md R157). -/
def execSub (f : Fields) (s : State) : Host.Outcome State Fault Refusal := execute aluSub f s

/-- MUL, ALU code 12 (42_alu.md R158). -/
def execMul (f : Fields) (s : State) : Host.Outcome State Fault Refusal := execute aluMul f s

/-- DIV, ALU code 13 (42_alu.md R159). -/
def execDiv (f : Fields) (s : State) : Host.Outcome State Fault Refusal := execute aluDiv f s

end Sys2Proof.Machine
end

