-- ==== Sys2Proof/Machine/BusSupport.lean ====
section
/-! DEFINITION. The two bus-support operations PAGE and OAND (42_alu.md R160, R161, decision D11). -/

namespace Sys2Proof.Machine

open Sys2Proof

/-- PAGE: the source value under `PAGE_MASK` (R160). -/
def aluPage : AluOp := fun s _ F O => plainOut (s &&& Config.pageMask) F O

/-- OAND: the source value anded with the overflow register (R161). -/
def aluOand : AluOp := fun s _ F O => plainOut (s &&& O) F O

/-- PAGE, ALU code 14 (42_alu.md R160). -/
def execPage (f : Fields) (s : State) : Host.Outcome State Fault Refusal := execute aluPage f s

/-- OAND, ALU code 15 (42_alu.md R161). -/
def execOand (f : Fields) (s : State) : Host.Outcome State Fault Refusal := execute aluOand f s

end Sys2Proof.Machine
end

