-- ==== Sys2Proof/Machine/Bytes.lean ====
section
/-! DEFINITION. The byte operations SWAP, MSB and LSB on the source value (42_alu.md R153 to R155, decision D5). -/

namespace Sys2Proof.Machine

open Sys2Proof

/-- SWAP: the two bytes exchanged (R153). -/
def aluSwap : AluOp := fun s _ F O => plainOut (s.extractLsb' 0 8 ++ s.extractLsb' 8 8) F O

/-- MSB: the high byte kept, the low byte cleared (R154). -/
def aluMsb : AluOp := fun s _ F O => plainOut (s &&& 0xFF00) F O

/-- LSB: the low byte kept, the high byte cleared (R155). -/
def aluLsb : AluOp := fun s _ F O => plainOut (s &&& 0x00FF) F O

/-- SWAP, ALU code 7 (42_alu.md R153). -/
def execSwap (f : Fields) (s : State) : Host.Outcome State Fault Refusal := execute aluSwap f s

/-- MSB, ALU code 8 (42_alu.md R154). -/
def execMsb (f : Fields) (s : State) : Host.Outcome State Fault Refusal := execute aluMsb f s

/-- LSB, ALU code 9 (42_alu.md R155). -/
def execLsb (f : Fields) (s : State) : Host.Outcome State Fault Refusal := execute aluLsb f s

end Sys2Proof.Machine
end

