-- ==== Sys2Proof/Machine/Copy.lean ====
section
/-! DEFINITION. COPY (42_alu.md R146). -/

namespace Sys2Proof.Machine

open Sys2Proof

/-- COPY: the source value; no flag, no overflow register (R146). -/
def aluCopy : AluOp := fun s _ F O => { result := s, flags := F, oflow := O }

/-- COPY, ALU code 0 (42_alu.md R146). -/
def execCopy (f : Fields) (s : State) : Host.Outcome State Fault Refusal := execute aluCopy f s

end Sys2Proof.Machine
end

