-- ==== Sys2Proof/Machine/Logic.lean ====
section
/-! DEFINITION. The logical operations AND, OR, XOR and INV (42_alu.md R147 to R150). -/

namespace Sys2Proof.Machine

open Sys2Proof

/-- AND: `d & s` (R147). -/
def aluAnd : AluOp := fun s d F O => plainOut (d &&& s) F O

/-- OR: `d | s` (R148). -/
def aluOr : AluOp := fun s d F O => plainOut (d ||| s) F O

/-- XOR: `d ^ s` (R149). -/
def aluXor : AluOp := fun s d F O => plainOut (d ^^^ s) F O

/-- INV: `~s`, the destination value read and not used (R150, decision D5). -/
def aluInv : AluOp := fun s _ F O => plainOut (~~~s) F O

/-- AND, ALU code 1 (42_alu.md R147). -/
def execAnd (f : Fields) (s : State) : Host.Outcome State Fault Refusal := execute aluAnd f s

/-- OR, ALU code 2 (42_alu.md R148). -/
def execOr (f : Fields) (s : State) : Host.Outcome State Fault Refusal := execute aluOr f s

/-- XOR, ALU code 3 (42_alu.md R149). -/
def execXor (f : Fields) (s : State) : Host.Outcome State Fault Refusal := execute aluXor f s

/-- INV, ALU code 4 (42_alu.md R150). -/
def execInv (f : Fields) (s : State) : Host.Outcome State Fault Refusal := execute aluInv f s

end Sys2Proof.Machine
end

