-- ==== Sys2Proof/Machine/Shift.lean ====
section
/-! DEFINITION. The shifts SHL and SHR: `d` shifted by the whole unsigned 16-bit count `s`, the bits that leave the word
kept in the overflow register (42_alu.md R151, R152, decisions D5 and D6). -/

namespace Sys2Proof.Machine

open Sys2Proof

/-- SHL: the result and the overflow register are the low and high word of `u(d) << u(s)` (R151). -/
def aluShl : AluOp := fun s d F _ =>
  let W := d.toNat * 2 ^ s.toNat
  wideOut (BitVec.ofNat 16 W) (BitVec.ofNat 16 (W / 65536)) F

/-- SHR: `d` stands in the high half of a 32-bit window, which is shifted right with floor, arithmetically in signed
mode; the result is the high word, the overflow register the low word (R152). -/
def aluShr : AluOp := fun s d F _ =>
  let X := (if signedMode F then d.toInt else (d.toNat : Int)) * 65536
  let Y := X.fdiv (2 ^ s.toNat)
  wideOut (BitVec.ofInt 16 (Y.fdiv 65536)) (BitVec.ofInt 16 Y) F

/-- SHL, ALU code 5 (42_alu.md R151). -/
def execShl (f : Fields) (s : State) : Host.Outcome State Fault Refusal := execute aluShl f s

/-- SHR, ALU code 6 (42_alu.md R152). -/
def execShr (f : Fields) (s : State) : Host.Outcome State Fault Refusal := execute aluShr f s

end Sys2Proof.Machine
end

