-- ==== Sys2Proof/Machine/Dispatch.lean ====
section
/-! DEFINITION. The one dispatch: each instruction's meaning. -/

namespace Sys2Proof.Machine

open Sys2Proof

/-- The meaning of an instruction on the processor whose turn it is (41_execute.md R139). -/
def exec (i : Instr) (s : State) : Host.Outcome State Fault Refusal :=
  match i with
  | .copy f => Sys2Proof.Machine.execCopy f s
  | .and f => Sys2Proof.Machine.execAnd f s
  | .or f => Sys2Proof.Machine.execOr f s
  | .xor f => Sys2Proof.Machine.execXor f s
  | .inv f => Sys2Proof.Machine.execInv f s
  | .shl f => Sys2Proof.Machine.execShl f s
  | .shr f => Sys2Proof.Machine.execShr f s
  | .swap f => Sys2Proof.Machine.execSwap f s
  | .msb f => Sys2Proof.Machine.execMsb f s
  | .lsb f => Sys2Proof.Machine.execLsb f s
  | .add f => Sys2Proof.Machine.execAdd f s
  | .sub f => Sys2Proof.Machine.execSub f s
  | .mul f => Sys2Proof.Machine.execMul f s
  | .div f => Sys2Proof.Machine.execDiv f s
  | .page f => Sys2Proof.Machine.execPage f s
  | .oand f => Sys2Proof.Machine.execOand f s

end Sys2Proof.Machine
end

