-- ==== Sys2Proof/Machine/Fetch.lean ====
section
/-! DEFINITION. Fetching the two words of an instruction (41_execute.md R124), and placing two words where the next
fetch reads them, as a loader does (70_reset_and_hazards.md R222). -/

namespace Sys2Proof.Machine

open Sys2Proof

/-- Word 1, at `pc` (41_execute.md R124). -/
def State.fetchWord1 (s : State) : Word := s.dev.load s.core.pc

/-- Word 2, at `pc + 1` modulo 2^16 (41_execute.md R124, 20_memory.md R46). -/
def State.fetchWord2 (s : State) : Word := s.dev.load (s.core.pc + 1)

/-- The instruction at `pc` (41_execute.md R125). -/
def State.fetched (s : State) : Instr := decode s.fetchWord1 s.fetchWord2

/-- A device's memory with one word placed in it by a loader, which also fills the ROM region
(70_reset_and_hazards.md R222). -/
def Device.place (d : Device) (a v : Word) : Device :=
  { d with mem := d.mem.write (d.index a) v }

/-- The system with two words placed at `pc` and `pc + 1` and the processor running, so that its next step executes
them (notes/assumptions/15.md). -/
def State.placeInstruction (s : State) (words : Word × Word) : State :=
  { s with
    dev := (s.dev.place s.core.pc words.1).place (s.core.pc + 1) words.2
    core := { s.core with run := .running } }

end Sys2Proof.Machine
end

