-- ==== Sys2Proof/Machine/Schedule.lean ====
section
/-! DEFINITION. Which processor moves next. Steps of different processors interleave in any order, one at a time
(20_memory.md R59, 60_exceptions.md R215, U7): after each step the turn goes to a running processor that a free value
names (notes/assumptions/7.md). -/

namespace Sys2Proof.Machine

open Sys2Proof

/-- Whether a device is a running processor: only such takes steps (41_execute.md R120). -/
def Node.isRunning (n : Node) : Bool :=
  match n.kind with
  | .processor c => !c.run.isHalted
  | .leaf _ => false

/-- The first running processor of a list that satisfies `p`, taken out, with `me` put in its place. -/
def swapIn (p : Node → Bool) (me : Node) : List Node → Option (Device × Core × List Node)
  | [] => none
  | n :: ns =>
    match n.kind with
    | .leaf _ => (swapIn p me ns).map (fun t => (t.1, t.2.1, n :: t.2.2))
    | .processor c =>
      if n.isRunning && p n then some (n.dev, c, me :: ns)
      else (swapIn p me ns).map (fun t => (t.1, t.2.1, n :: t.2.2))

/-- The turn given to the first other running processor that satisfies `p`, if there is one. -/
def State.giveTurn (s : State) (p : Node → Bool) : Option State :=
  match swapIn p s.selfNode s.others with
  | none => none
  | some t => some { s with dev := t.1, core := t.2.1, others := t.2.2 }

/-- The turn after a step: the running processor that the free value names; the same processor where it names no other
running one and this one runs; else any that runs. -/
def State.handOver (s : State) : State :=
  match s.giveTurn (fun n => n.id == Config.nextProcessor s.draws) with
  | some t => t
  | none =>
    match s.core.run with
    | .running => s
    | .halted _ => (s.giveTurn (fun _ => true)).getD s

end Sys2Proof.Machine
end

