-- ==== Sys2Proof/Machine/Step.lean ====
section
/-! DEFINITION. One step of the system: the processor whose turn it is fetches, decodes and executes one instruction
(41_execute.md R120, R139), then the turn is given on. -/

namespace Sys2Proof.Machine

open Sys2Proof

/-- One step. A running processor executes the instruction at its pc. A halted one takes no step (41_execute.md R120):
the turn goes to a processor that runs, and where none does the machine has stopped (U15). -/
def step (s : State) : Host.Outcome State Fault Refusal :=
  match s.core.run with
  | .running =>
    match exec s.fetched s with
    | .next t => .next t.handOver
    | .fault e => .fault e
    | .refused r => .refused r
  | .halted code =>
    if s.others.any Node.isRunning then .next s.tick.handOver else .fault (.halted code)

/-- `s` with the instruction whose table bits are `w` stored where the next step fetches. -/
def State.withFetchWord (s : State) (nbits w : Nat) : State :=
  s.placeInstruction (tableWords nbits w)

end Sys2Proof.Machine
end

