-- ==== Sys2Proof/Machine/Boot.lean ====
section
/-! DEFINITION. Reset of a platform: construction from the parameters and program images of its devices
(70_reset_and_hazards.md R220 to R222). A configuration that breaks the constraints of 00_scope.md R6 is no machine and
is refused by name (60_exceptions.md R204, U18). -/

namespace Sys2Proof.Machine

open Sys2Proof

/-- What a device is built as. -/
inductive BootKind where
  | processor
  | leaf (k : LeafKind)
deriving DecidableEq, Repr

/-- One device as the platform describes it: parameters, kind, and the words loaded into its memory from word 0 up
(70_reset_and_hazards.md R222). -/
structure DeviceSpec where
  params : DeviceParams
  kind : BootKind
  image : List Word
deriving DecidableEq, Repr

/-- Why a configuration is no machine. -/
inductive BootError where
  /-- A parameter outside its legal values (00_scope.md R6). -/
  | illegalParams
  /-- An image longer than the local memory (70_reset_and_hazards.md R222). -/
  | imageTooLong
  /-- A byte image of odd length (70_reset_and_hazards.md R222). -/
  | oddImage
  /-- Two devices with one id (00_scope.md R6). -/
  | duplicateId
  /-- An index connected to an id that no device of the system has (10_state.md R30). -/
  | missingDevice
  /-- The device given the first turn is not a processor. -/
  | notProcessor
deriving DecidableEq, Repr

/-- The legal parameters of a device (00_scope.md R6, 10_state.md R30); a processor needs a local memory. -/
def DeviceSpec.legal (x : DeviceSpec) : Bool :=
  x.params.id != 0
    && (x.params.addressWidth == 0 && x.kind != .processor
        || decide (8 ≤ x.params.addressWidth) && decide (x.params.addressWidth ≤ 16))
    && decide (x.params.romEnd ≤ 2 ^ x.params.addressWidth)
    && x.params.connected.all (fun c => c.1 != 0 && c.2 != x.params.id)
    && decide (x.params.connected.map Prod.fst).Nodup

/-- A device in its reset state (70_reset_and_hazards.md R220). -/
def DeviceSpec.device (x : DeviceSpec) : Device :=
  Device.reset x.params (Memory.ofWordsFrom 0 x.image)

/-- Whether the image fits the local memory (70_reset_and_hazards.md R222). -/
def DeviceSpec.imageFits (x : DeviceSpec) : Bool :=
  decide (x.image.length ≤ x.device.memSize)

/-- A device of the system in its reset state (70_reset_and_hazards.md R220). -/
def DeviceSpec.node (x : DeviceSpec) : Node :=
  match x.kind with
  | .processor => { dev := x.device, kind := .processor Core.reset }
  | .leaf k => { dev := x.device, kind := .leaf k }

/-- A byte stream packed into words, high byte first (20_memory.md R42, 70_reset_and_hazards.md R222). -/
def packImage : List Byte → Except BootError (List Word)
  | [] => .ok []
  | [_] => .error .oddImage
  | high :: low :: rest =>
    match packImage rest with
    | .ok ws => .ok (packWord high low :: ws)
    | .error e => .error e

/-- The system right after reset, with the program images loaded. `first` is the processor that takes the first step;
which one that is no rule fixes (20_memory.md R59), so a claim about a platform is stated for each. -/
def construct (first : DeviceSpec) (rest : List DeviceSpec) : Except BootError State :=
  let all := first :: rest
  let ids := all.map (fun x => x.params.id)
  if !all.all DeviceSpec.legal then .error .illegalParams
  else if !all.all DeviceSpec.imageFits then .error .imageTooLong
  else if !decide ids.Nodup then .error .duplicateId
  else if !all.all (fun x => x.params.connected.all (fun c => ids.contains c.2)) then .error .missingDevice
  else
    match first.kind with
    | .processor => .ok { dev := first.device, core := Core.reset, others := rest.map DeviceSpec.node, draws := 0 }
    | .leaf _ => .error .notProcessor

end Sys2Proof.Machine
end

