-- ==== Sys2Proof/Safety.lean ====
section
/-! DEFINITION. The terms in which claims are made: the devices of a system, the system invariant (10_state.md R33), what
flags an operation leaves (42_alu.md R141, R142), what a register or a memory word may be changed by, and runs. -/

namespace Sys2Proof

/-! ## What an instruction may change -/

/-- The instructions that write the overflow register (42_alu.md R142). -/
def Instr.writesOflow : Instr → Bool
  | .shl _ => true
  | .shr _ => true
  | .add _ => true
  | .sub _ => true
  | .mul _ => true
  | .div _ => true
  | .copy _ => false
  | .and _ => false
  | .or _ => false
  | .xor _ => false
  | .inv _ => false
  | .swap _ => false
  | .msb _ => false
  | .lsb _ => false
  | .page _ => false
  | .oand _ => false

/-- The instructions that write the overflow flag (42_alu.md R142, R143). -/
def Instr.writesV : Instr → Bool
  | .add _ => true
  | .sub _ => true
  | .mul _ => true
  | .shl _ => false
  | .shr _ => false
  | .div _ => false
  | .copy _ => false
  | .and _ => false
  | .or _ => false
  | .xor _ => false
  | .inv _ => false
  | .swap _ => false
  | .msb _ => false
  | .lsb _ => false
  | .page _ => false
  | .oand _ => false

/-- The instruction's fields let it write the general register `q`: it is the destination, or the pointer that a push or
a pop adjusts (41_execute.md R130, R133, R134). -/
def Fields.mayWrite (f : Fields) (q : Reg) : Prop :=
  f.dest = .reg q ∨ (f.dest = .mem q ∧ f.increment = true)
    ∨ (f.source = .mem q ∧ f.increment = true ∧ f.dest.isMem = false)

end Sys2Proof

namespace Sys2Proof.Machine

open Sys2Proof

/-! ## The system and its invariant -/

/-- Every device of the system, the executing processor first. -/
def State.nodes (s : State) : List Node := s.selfNode :: s.others

/-- The device of an id, wherever it stands. -/
def State.node (s : State) (id : Word) : Option Node := findNode id s.nodes

/-- Legal parameters of a device in the system (00_scope.md R6). -/
structure Node.Legal (n : Node) : Prop where
  id_ne_zero : n.id ≠ 0
  width : n.dev.params.addressWidth = 0 ∨ (8 ≤ n.dev.params.addressWidth ∧ n.dev.params.addressWidth ≤ 16)
  rom : n.dev.params.romEnd ≤ 2 ^ n.dev.params.addressWidth
  index_ne_zero : ∀ c ∈ n.dev.params.connected, c.1 ≠ 0
  not_itself : ∀ c ∈ n.dev.params.connected, c.2 ≠ n.id

/-- A device's memory has its canonical form and lists no index outside the local memory. -/
structure Device.Sound (d : Device) : Prop where
  canonical : d.mem.wf
  inside : ∀ x ∈ d.mem, x.1 < d.memSize

/-- A processor has a local memory, and between steps `next` is `pc + 2` (10_state.md R33). -/
def Node.ProcessorSound (n : Node) : Prop :=
  match n.kind with
  | .processor c => c.next = c.pc + 2 ∧ n.dev.params.addressWidth ≠ 0
  | .leaf _ => True

/-- The invariant of a system between steps (10_state.md R33, 00_scope.md R6). -/
structure State.Inv (s : State) : Prop where
  legal : ∀ n ∈ s.nodes, n.Legal
  sound : ∀ n ∈ s.nodes, n.dev.Sound
  processors : ∀ n ∈ s.nodes, n.ProcessorSound
  unique : (s.nodes.map Node.id).Nodup

/-- The device `n` is connected to the executing processor at an index: its `connected` map gives the index the id of
that device of the system (10_state.md R30, 43_device_bus.md R184). -/
def State.Connects (s : State) (index : Byte) (n : Node) : Prop :=
  index ≠ 0 ∧ ∃ id, s.dev.params.connected.lookup index = some id ∧ findNode id s.others = some n

/-- A device as construction leaves it (70_reset_and_hazards.md R220, R222): unclaimed, slots 3 to 5 zero, its image from
word 0 up and 0 in every other word. -/
structure Device.IsReset (d : Device) (params : DeviceParams) (image : List Word) : Prop where
  params : d.params = params
  unclaimed : d.initDevice = 0
  mappedBlock : d.mappedBlock = 0
  status : d.status = 0
  handler : d.handler = 0
  loaded : ∀ k, k < image.length → d.mem.read k = image.getD k 0
  clear : ∀ k, image.length ≤ k → d.mem.read k = 0

/-! ## Results and flags -/

/-- The flags register `F'` has these six bits (10_state.md R15), with `S` and bits 15:6 as in `F`
(42_alu.md R141). -/
structure FlagsAre (F' F : Word) (z n c v e : Bool) : Prop where
  zero : F'.getLsbD 0 = z
  negative : F'.getLsbD 1 = n
  carry : F'.getLsbD 2 = c
  overflow : F'.getLsbD 3 = v
  error : F'.getLsbD 4 = e
  kept : ∀ k, 5 ≤ k → F'.getLsbD k = F.getLsbD k

/-- The next state after the instruction `i` when its ALU operation gives result `r`, flags `F'` and overflow register
`O'`: both operands read, then the decision, the store and retirement (41_execute.md R126 to R132). -/
def State.completed (s : State) (i : Instr) (r F' O' : Word) : State :=
  (s.afterReads i.fields).finish i.fields { result := r, flags := F', oflow := O' }

/-- The instruction `i` completes: `exec` answers the next state with result `r` and overflow register `O'`, the flags
Z, N, C by the common rule (42_alu.md R141), V and E as given. -/
def State.CompletesWith (s : State) (i : Instr) (r O' : Word) (v e : Bool) : Prop :=
  ∃ F', FlagsAre F' s.core.flags (r == 0) (r.getLsbD 15) (O'.getLsbD 0) v e ∧
    exec i s = .next (s.completed i r F' O')

/-- The same for an instruction that keeps the overflow register, V and E (42_alu.md R142). -/
def State.CompletesPlain (s : State) (i : Instr) (r : Word) : Prop :=
  s.CompletesWith i r s.core.oflow (s.core.flags.getLsbD Config.bitV) (s.core.flags.getLsbD Config.bitE)

/-! ## Runs -/

/-- `t` is reached from `s` by steps. -/
inductive Reaches : State → State → Prop where
  | refl (s : State) : Reaches s s
  | step {s t u : State} (first : Machine.step s = .next t) (rest : Reaches t u) : Reaches s u

/-- A safe run meets no refused step: no instruction with the reserved combination (60_exceptions.md R218). -/
def State.Safe (s : State) : Prop :=
  ∀ t, Reaches s t → ∀ r, Machine.step t ≠ .refused r

end Sys2Proof.Machine
end

