-- ==== Sys2Proof/Certificates/Slice0/Obligations.lean ====
section
/-! DEFINITION. The statements for the provers. Where a statement rests on a point that the spec decides by itself
(92_eei_decisions.md D<n>) or that the model's log names, its docstring says so. In every statement of a result, `a` is
the source value and `b` the destination value of the instruction (41_execute.md R126, R127). -/

open Sys2Proof Sys2Proof.Machine

/-! ## Encoding -/

/-- R83: the two words of an instruction as numbers, and decoding them gives the instruction back, every operand at
every value that its form admits. -/
def Obligations.DecodeOfEncodeIsTheInstruction : Prop :=
  ∀ i : Instr, i.WellFormed →
    (encode i).1.toNat = i.fields.source.code.toNat * 4096 + i.fields.dest.code.toNat * 256 +
      (if i.fields.increment then 128 else 0) + i.fields.effect.code.toNat * 16 + i.aluCode.toNat ∧
    (encode i).2.toNat =
      (if i.fields.dest.isMem then i.fields.offset.toNat * 4096 + i.fields.imm.toNat % 4096 else i.fields.imm.toNat) ∧
    decode (encode i).1 (encode i).2 = i

/-- R80: decoding is total, and no bit of a word is lost: every pair of words decodes to a well-formed instruction whose
encoding is that pair. -/
def Obligations.EveryWordPairIsOneInstruction : Prop :=
  ∀ word1 word2 : Word,
    (decode word1 word2).WellFormed ∧ encode (decode word1 word2) = (word1, word2)

/-- R71: where each field of word 1 stands. -/
def Obligations.FieldsOfWordOne : Prop :=
  ∀ word1 word2 : Word,
    (decode word1 word2).fields.source.code = word1.extractLsb' 12 4 ∧
    (decode word1 word2).fields.dest.code = word1.extractLsb' 8 4 ∧
    (decode word1 word2).fields.increment = word1.getLsbD 7 ∧
    (decode word1 word2).fields.effect.code = word1.extractLsb' 4 3 ∧
    (decode word1 word2).aluCode = word1.extractLsb' 0 4

/-- R72, R73: where each field of word 2 stands; the split depends on the destination alone. -/
def Obligations.FieldsOfWordTwo : Prop :=
  ∀ word1 word2 : Word, ∀ f : Fields, f = (decode word1 word2).fields →
    (f.dest.isMem = true →
      f.offset = word2.extractLsb' 12 4 ∧ f.imm.extractLsb' 0 12 = word2.extractLsb' 0 12) ∧
    (f.dest.isMem = false → f.imm = word2)

/-- R74: the memory-class codes, as numbers and by their bits, the same for source and destination. -/
def Obligations.MemoryClassCodes : Prop :=
  ∀ c : BitVec 4,
    (Source.ofCode c).isMem = (Dest.ofCode c).isMem ∧
    ((Dest.ofCode c).isMem = true ↔ c.toNat ∈ [1, 2, 3, 9, 10, 11]) ∧
    ((Dest.ofCode c).isMem = true ↔ c.getLsbD 2 = false ∧ c.extractLsb' 0 2 ≠ 0)

/-- R75 and R76 as numbers (decisions D13, D36): the immediate is 0 to 4095 between two memory operands, -2048 to 2047
into memory from anything else, all of word 2 otherwise; the offset is -8 to 7, and 0 where there is no field. -/
def Obligations.ImmediateAndOffsetOfWordTwo : Prop :=
  ∀ word1 word2 : Word, ∀ f : Fields, f = (decode word1 word2).fields →
    (f.dest.isMem = true → f.source.isMem = true → f.imm.toNat = word2.toNat % 4096) ∧
    (f.dest.isMem = true → f.source.isMem = false →
      f.imm.toInt = if word2.toNat % 4096 < 2048 then ((word2.toNat % 4096 : Nat) : Int)
        else ((word2.toNat % 4096 : Nat) : Int) - 4096) ∧
    (f.dest.isMem = false → f.imm = word2) ∧
    (f.dest.isMem = true → f.dstOff.toInt = if word2.toNat / 4096 < 8 then ((word2.toNat / 4096 : Nat) : Int)
      else ((word2.toNat / 4096 : Nat) : Int) - 16) ∧
    (f.dest.isMem = false → f.dstOff = 0)

/-- Words of 95_test_vectors.md section 2.1 decode to the instructions that stand beside them there. The ALU code of ADD
is decision D4 (notes/assumptions/19.md); the immediates 0x0800 and 0xFABC rest on decision D36, by which a 12-bit
immediate is unsigned when the source is memory-class and sign-extended when it is a register
(notes/assumptions/13.md). -/
def Obligations.ListedWordsDecode : Prop :=
  decode 0x41C0 0x0042 = .copy ⟨.imm, .mem .r1, true, .always, 0x0042, 0⟩ ∧
  decode 0x61CA 0xF000 = .add ⟨.reg .r2, .mem .r1, true, .always, 0, 0xF⟩ ∧
  decode 0x914A 0x7800 = .add ⟨.mem .r4, .mem .r1, false, .always, 0x0800, 7⟩ ∧
  decode 0x5940 0x9ABC = .copy ⟨.reg .r1, .mem .r4, false, .always, 0xFABC, 9⟩ ∧
  decode 0xC070 0x0000 = .copy ⟨.ih, .pc, false, .onInterrupt, 0, 0⟩

/-- R81, R136 (decision D16): the words that are refused are those with the increment bit set and neither operand code
memory-class, a code being memory-class when its bit 2 is 0 and its bits 1:0 are not (R74). -/
def Obligations.OnlyReservedWordsAreRefused : Prop :=
  ∀ (word1 word2 : Word) (s : State) (r : Refusal),
    exec (decode word1 word2) s = .refused r ↔
      r = .reservedIncrement ∧ word1.getLsbD 7 = true ∧
      ¬(word1.getLsbD 10 = false ∧ word1.extractLsb' 8 2 ≠ 0) ∧
      ¬(word1.getLsbD 14 = false ∧ word1.extractLsb' 12 2 ≠ 0)

/-! ## Results of the instructions -/

/-- R146: COPY completes with the source value and alters neither flags nor the overflow register. -/
def Obligations.CopyCompletes : Prop :=
  ∀ (f : Fields) (s : State), f.reserved = false →
    (Instr.copy f).aluCode = 0x0 ∧
    exec (.copy f) s = .next (s.completed (.copy f) (s.srcValue f) s.core.flags s.core.oflow)

/-- R147 to R149, R141: AND, OR and XOR complete with `d & s`, `d | s`, `d ^ s` and write the flags Z, N and C (that
logical operations write them: decision D8; their ALU codes: D4; the places of the flags: D3, notes/assumptions/19.md).
-/
def Obligations.LogicCompletes : Prop :=
  ∀ (f : Fields) (s : State) (a b : Word), f.reserved = false → a = s.srcValue f → b = s.dstValue f →
    (Instr.and f).aluCode = 0x1 ∧ (Instr.or f).aluCode = 0x2 ∧ (Instr.xor f).aluCode = 0x3 ∧
    s.CompletesPlain (.and f) (b &&& a) ∧ s.CompletesPlain (.or f) (b ||| a) ∧ s.CompletesPlain (.xor f) (b ^^^ a)

/-- R150, R153 to R155 (decisions D5, D8; what MSB and LSB keep: notes/assumptions/25.md): INV, SWAP, MSB and LSB act on
the source value: its complement, its bytes exchanged, its low byte cleared, its high byte cleared. ALU codes: decision
D4; places of the flags: D3 (notes/assumptions/19.md). -/
def Obligations.OneOperandCompletes : Prop :=
  ∀ (f : Fields) (s : State) (a : Word), f.reserved = false → a = s.srcValue f →
    (Instr.inv f).aluCode = 0x4 ∧ (Instr.swap f).aluCode = 0x7 ∧ (Instr.msb f).aluCode = 0x8 ∧
    (Instr.lsb f).aluCode = 0x9 ∧
    s.CompletesPlain (.inv f) (-a - 1) ∧
    s.CompletesPlain (.swap f) (a.rotateLeft 8) ∧
    s.CompletesPlain (.msb f) ((a >>> 8) <<< 8) ∧
    s.CompletesPlain (.lsb f) (BitVec.ofNat 16 (a.toNat % 256))

/-- R160, R161 (decisions D8, D11): PAGE keeps the block base of the source value; OAND ands it with the overflow
register, which it so reads whole when the source is all ones. ALU codes: decision D4; places of the flags: D3
(notes/assumptions/19.md). -/
def Obligations.BusSupportCompletes : Prop :=
  ∀ (f : Fields) (s : State) (a : Word), f.reserved = false → a = s.srcValue f →
    (Instr.page f).aluCode = 0xE ∧ (Instr.oand f).aluCode = 0xF ∧
    s.CompletesPlain (.page f) (BitVec.ofNat 16 (a.toNat / 256 * 256)) ∧
    s.CompletesPlain (.oand f) (a &&& s.core.oflow)

/-- R151, R163 (decisions D5, D6): after SHL the pair of overflow register and result is the low 32 bits of `d` shifted
left by the whole unsigned count; for counts 1 to 16 the carry is the last bit shifted out. ALU code: decision
D4; places of the flags: D3 (notes/assumptions/19.md). -/
def Obligations.ShlCompletes : Prop :=
  ∀ (f : Fields) (s : State) (a b : Word), f.reserved = false → a = s.srcValue f → b = s.dstValue f →
    (Instr.shl f).aluCode = 0x5 ∧ ∃ r O' : Word,
      s.CompletesWith (.shl f) r O' (s.core.flags.getLsbD 3) (s.core.flags.getLsbD 4) ∧
      O' ++ r = b.setWidth 32 <<< a.toNat ∧
      (1 ≤ a.toNat → a.toNat ≤ 16 → O'.getLsbD 0 = b.getLsbD (16 - a.toNat))

/-- R152, R163 (decisions D5, D6): after SHR the pair of result and overflow register is `d` over sixteen zeros shifted
right by the whole unsigned count, arithmetically in signed mode. ALU code: decision D4; places of the flags: D3
(notes/assumptions/19.md). -/
def Obligations.ShrCompletes : Prop :=
  ∀ (f : Fields) (s : State) (a b : Word), f.reserved = false → a = s.srcValue f → b = s.dstValue f →
    (Instr.shr f).aluCode = 0x6 ∧ ∃ r O' : Word,
      s.CompletesWith (.shr f) r O' (s.core.flags.getLsbD 3) (s.core.flags.getLsbD 4) ∧
      r ++ O' = if s.core.flags.getLsbD 5 then (b ++ 0#16).sshiftRight a.toNat else (b ++ 0#16) >>> a.toNat

/-- R156, R163 (decision D7): after ADD the pair of overflow register and result is the exact sum; V is signed overflow;
E is kept. Both modes alike. ALU code: decision D4; places of the flags: D3 (notes/assumptions/19.md). -/
def Obligations.AddCompletes : Prop :=
  ∀ (f : Fields) (s : State) (a b : Word), f.reserved = false → a = s.srcValue f → b = s.dstValue f →
    (Instr.add f).aluCode = 0xA ∧ ∃ O' : Word,
      s.CompletesWith (.add f) (b + a) O' (BitVec.saddOverflow b a) (s.core.flags.getLsbD 4) ∧
      (O' ++ (b + a)).toNat = b.toNat + a.toNat

/-- R157, R163 (decisions D5, D7, D35): after SUB the pair of overflow register and result is the exact difference
`d - s` as a 32-bit number; V is the signed overflow of `d - s` (notes/assumptions/12.md); E is kept. Both modes alike.
ALU code: decision D4; places of the flags: D3 (notes/assumptions/19.md). -/
def Obligations.SubCompletes : Prop :=
  ∀ (f : Fields) (s : State) (a b : Word), f.reserved = false → a = s.srcValue f → b = s.dstValue f →
    (Instr.sub f).aluCode = 0xB ∧ ∃ O' : Word,
      s.CompletesWith (.sub f) (b - a) O' (BitVec.ssubOverflow b a) (s.core.flags.getLsbD 4) ∧
      (O' ++ (b - a)).toInt = (b.toNat : Int) - (a.toNat : Int)

/-- R158, R163 (decision D9): after MUL the pair of overflow register and result is the exact product, of signed values
in signed mode, where V says that it leaves the signed 16-bit range; in unsigned mode V is 0. E is kept.
ALU code: decision D4; places of the flags: D3 (notes/assumptions/19.md). -/
def Obligations.MulCompletes : Prop :=
  ∀ (f : Fields) (s : State) (a b : Word), f.reserved = false → a = s.srcValue f → b = s.dstValue f →
    (Instr.mul f).aluCode = 0xC ∧
    (s.core.flags.getLsbD 5 = false →
      ∃ O' : Word, s.CompletesWith (.mul f) (b * a) O' false (s.core.flags.getLsbD 4) ∧
        (O' ++ (b * a)).toNat = b.toNat * a.toNat) ∧
    (s.core.flags.getLsbD 5 = true →
      ∃ O' : Word, s.CompletesWith (.mul f) (b * a) O' (BitVec.smulOverflow b a) (s.core.flags.getLsbD 4) ∧
        (O' ++ (b * a)).toInt = b.toInt * a.toInt)

/-- R159, R163 (decisions D5, D10): DIV by a non-zero divisor. In unsigned mode `d = q * s + m` with `m < s`; in signed
mode the same in the integers with `|m| < |s|` and `m` of the dividend's sign, the quotient cut back to 16 bits. The
result is `q`, the overflow register `m`; E is cleared, V kept. ALU code: decision D4; places of the flags: D3
(notes/assumptions/19.md). -/
def Obligations.DivCompletes : Prop :=
  ∀ (f : Fields) (s : State) (a b : Word), f.reserved = false → a = s.srcValue f → b = s.dstValue f → a ≠ 0 →
    (Instr.div f).aluCode = 0xD ∧
    (s.core.flags.getLsbD 5 = false →
      ∃ q m : Word, s.CompletesWith (.div f) q m (s.core.flags.getLsbD 3) false ∧
        b.toNat = q.toNat * a.toNat + m.toNat ∧ m.toNat < a.toNat) ∧
    (s.core.flags.getLsbD 5 = true →
      ∃ (q : Int) (m : Word), s.CompletesWith (.div f) (BitVec.ofInt 16 q) m (s.core.flags.getLsbD 3) false ∧
        b.toInt = q * a.toInt + m.toInt ∧ m.toInt.natAbs < a.toInt.natAbs ∧
        (m.toInt = 0 ∨ m.toInt.sign = b.toInt.sign))

/-- R159, R144, R201: DIV by zero completes: it leaves the dividend as the result and sets E, in both modes. That the
overflow register and V are kept is decision D10; ALU code: D4; places of the flags: D3 (notes/assumptions/19.md). -/
def Obligations.DivByZeroCompletes : Prop :=
  ∀ (f : Fields) (s : State), f.reserved = false → s.srcValue f = 0 →
    s.CompletesWith (.div f) (s.dstValue f) s.core.oflow (s.core.flags.getLsbD 3) true

/-! ## The store decision, commit and discard -/

/-- R78: the condition that each effect code stands for, on the flags after the instruction's ALU operation (places of
the flags: decision D3). That `irq_pending` is a free value at the draw counter is the model's form of decision D17
(notes/assumptions/4.md). -/
def Obligations.EffectsDecideTheStore : Prop :=
  ∀ (s t : State) (f : Fields) (out : AluOut), t = s.latch out.flags out.oflow →
    (f.effect.code = 0 → t.stores f = out.flags.getLsbD Config.bitZ) ∧
    (f.effect.code = 1 → t.stores f = !out.flags.getLsbD Config.bitZ) ∧
    (f.effect.code = 2 → t.stores f = out.flags.getLsbD Config.bitN) ∧
    (f.effect.code = 3 → t.stores f = false) ∧
    (f.effect.code = 4 → t.stores f = true) ∧
    (f.effect.code = 5 → t.stores f = out.flags.getLsbD Config.bitV) ∧
    (f.effect.code = 6 → t.stores f = out.flags.getLsbD Config.bitE) ∧
    (f.effect.code = 7 → t.stores f = Config.irqPending s.draws)

/-- R137, R130: an instruction whose store is not indicated writes no destination and no pointer register, does not
halt, and goes on to the following instruction. With effect 3 every instruction completes so, as a pure test. -/
def Obligations.EffectNeverIsAPureTest : Prop :=
  (∀ (s : State) (f : Fields) (out : AluOut), (s.latch out.flags out.oflow).stores f = false →
    (s.finish f out).dev = s.dev ∧ (s.finish f out).others = s.others ∧
    (∀ q, (s.finish f out).core.reg q = s.core.reg q) ∧ (s.finish f out).core.run = s.core.run ∧
    (s.finish f out).core.pc = s.core.next ∧ (s.finish f out).core.next = s.core.next + 2) ∧
  (∀ (i : Instr) (s : State), i.fields.reserved = false → i.fields.effect = .never →
    ∃ t, exec i s = .next t ∧ t.dev = s.dev ∧ t.others = s.others ∧ (∀ q, t.core.reg q = s.core.reg q) ∧
      t.core.run = s.core.run ∧ t.core.pc = s.core.next ∧ t.core.next = s.core.next + 2)

/-- R207 (decision D17, notes/assumptions/4.md): `irq_pending`, as drawn after the operand reads, decides the store of
an instruction with effect 7, which is then that instruction with effect 4 or with effect 3; the store decision of every
other effect does not look at it. -/
def Obligations.InterruptOnlyDecidesTheStore : Prop :=
  ∀ (c : BitVec 4) (f : Fields) (s : State),
    (f.effect = .onInterrupt →
      exec (Instr.ofAluCode c f) s =
        exec (Instr.ofAluCode c
          { f with effect := if Config.irqPending (s.afterReads f).draws then .always else .never }) s) ∧
    (f.effect ≠ .onInterrupt → ∀ F, f.effect.stores F true = f.effect.stores F false)

/-- R110, R134 (decision D15): a stored result lands in the destination register, and a pop then adds 1 to the source's
pointer, to the result itself where both are the same register. -/
def Obligations.RegisterDestinationLands : Prop :=
  ∀ (s : State) (f : Fields) (out : AluOut) (q : Reg), f.dest = .reg q →
    (s.latch out.flags out.oflow).stores f = true →
    (s.finish f out).core.reg q = out.result + (if f.pop = true ∧ f.source = .mem q then 1 else 0) ∧
    (∀ p, p ≠ q → (s.finish f out).core.reg p =
      s.core.reg p + (if f.pop = true ∧ f.source = .mem p then 1 else 0)) ∧
    (s.finish f out).core.pc = s.core.next

/-- R107, R131, R132, R134, R138 (the halt test: decision D18): a stored result for the pc is the next pc, with `next`
two words on, and a pop adds 1 to the source's pointer. The processor halts exactly when the source is the pc too and
the result is the instruction's own address; the code is the local word at `R[1]`. -/
def Obligations.PcDestinationJumpsOrHalts : Prop :=
  ∀ (s : State) (f : Fields) (out : AluOut), f.dest = .pc → (s.latch out.flags out.oflow).stores f = true →
    (s.finish f out).core.pc = out.result ∧ (s.finish f out).core.next = out.result + 2 ∧
    (∀ p, (s.finish f out).core.reg p = s.core.reg p + (if f.pop = true ∧ f.source = .mem p then 1 else 0)) ∧
    (s.finish f out).core.run =
      if f.source = .pc ∧ out.result = s.core.pc then .halted (s.dev.load s.core.r1) else s.core.run

/-- R109, R112, R134: a stored result for the flags replaces them whole, over the ALU's own update (that all 16 bits are
stored: decision D30); one for `ih` is what control slot 5 of the processor then reads (that the two are one storage:
decision D17, notes/assumptions/24.md). The instruction goes on to the following one, and a pop adds 1 to the source's
pointer. -/
def Obligations.FlagsAndHandlerDestinationsLand : Prop :=
  ∀ (s : State) (f : Fields) (out : AluOut), (s.latch out.flags out.oflow).stores f = true →
    (f.dest = .flags ∨ f.dest = .flags4 → (s.finish f out).core.flags = out.result) ∧
    (f.dest = .ih → (s.finish f out).dev.handler = out.result ∧ (s.finish f out).dev.slotRead 5 = out.result) ∧
    (f.dest = .flags ∨ f.dest = .flags4 ∨ f.dest = .ih →
      (s.finish f out).core.pc = s.core.next ∧ (s.finish f out).core.next = s.core.next + 2 ∧
      (s.finish f out).core.run = s.core.run ∧
      ∀ p, (s.finish f out).core.reg p = s.core.reg p + (if f.pop = true ∧ f.source = .mem p then 1 else 0))

/-- R103, R113 (decision D13): destination code 4 is destination code 8 in every respect. -/
def Obligations.DestinationFourIsFlags : Prop :=
  ∀ (c : BitVec 4) (f : Fields) (s : State),
    exec (Instr.ofAluCode c { f with dest := .flags4 }) s = exec (Instr.ofAluCode c { f with dest := .flags }) s

/-- R108, R133, R45 (decisions D2, D14, D15, D26): a stored result for a local memory operand is read back at the
destination address, unless that lies in the ROM region, where memory keeps its word; push takes 1 off the pointer in
both cases. -/
def Obligations.LocalDestinationLands : Prop :=
  ∀ (s : State) (f : Fields) (out : AluOut) (r : Reg), f.dest = .mem r → r.isLocal = true →
    s.dev.params.addressWidth ≠ 0 → (s.latch out.flags out.oflow).stores f = true →
    ((s.finish f out).dev.load (s.dstAddr f r) =
      if s.dev.index (s.dstAddr f r) < s.dev.params.romEnd then s.dev.load (s.dstAddr f r) else out.result) ∧
    (s.finish f out).core.reg r = s.core.reg r - (if f.increment then 1 else 0) ∧
    (s.finish f out).core.pc = s.core.next

/-- R111, R49 (decisions D15, D19): a stored result for a banked operand is the bus write at the destination address:
the device connected at the index becomes what its control write or block write, issued by this processor, makes of it.
Push takes 1 off the pointer whether or not the bus write was dropped. -/
def Obligations.BankedDestinationLands : Prop :=
  ∀ (s : State) (f : Fields) (out : AluOut) (r : Reg), f.dest = .mem r → r.isLocal = false →
    (s.latch out.flags out.oflow).stores f = true →
    (s.finish f out).dev = (s.busWrite (s.dstAddr f r) out.result).dev ∧
    (s.finish f out).others = (s.busWrite (s.dstAddr f r) out.result).others ∧
    (∀ index slot n, busTarget (s.dstAddr f r) = .control index slot → s.Connects index n →
      findNode n.id (s.finish f out).others = some (n.ctlWrite s.dev.params.id slot out.result s.draws)) ∧
    (∀ index w n, busTarget (s.dstAddr f r) = .block index w → s.Connects index n →
      findNode n.id (s.finish f out).others = some (n.blockWrite s.dev.params.id w out.result s.draws)) ∧
    (s.finish f out).core.reg r = s.core.reg r - (if f.increment then 1 else 0) ∧
    (s.finish f out).core.pc = s.core.next

/-- The push property of R133: a COPY that pushes leaves the pointer one lower and its source value at the old pointer
plus the offset minus 1 (decisions D2, D14 for the address). -/
def Obligations.CopyPushes : Prop :=
  ∀ (s : State) (f : Fields) (r : Reg), f.dest = .mem r → r.isLocal = true → f.increment = true →
    f.effect = .always → s.dev.params.addressWidth ≠ 0 →
    s.dev.params.romEnd ≤ s.dev.index (s.core.reg r + f.offset.signExtend 16 - 1) →
    ∃ t, exec (.copy f) s = .next t ∧ t.core.reg r = s.core.reg r - 1 ∧
      t.dev.load (s.core.reg r + f.offset.signExtend 16 - 1) = s.srcValue f

/-- The pop property of R134: a COPY that pops a local word into another register reads it at the pointer plus the
immediate and leaves the pointer one higher. -/
def Obligations.CopyPops : Prop :=
  ∀ (s : State) (f : Fields) (r q : Reg), f.source = .mem r → r.isLocal = true → f.dest = .reg q → q ≠ r →
    f.increment = true → f.effect = .always →
    ∃ t, exec (.copy f) s = .next t ∧ t.core.reg r = s.core.reg r + 1 ∧
      t.core.reg q = s.dev.load (s.core.reg r + f.imm)

/-! ## Frames -/

/-- The general registers that an instruction may change are its destination register and the pointer that push or pop
adjusts (R130, R133, R134); every other keeps its value. -/
def Obligations.OtherRegistersAreKept : Prop :=
  ∀ (i : Instr) (s t : State) (q : Reg), exec i s = .next t → ¬i.fields.mayWrite q →
    t.core.reg q = s.core.reg q

/-- R142, R16: the flags and the overflow register that an instruction may change. COPY changes none; V only ADD, SUB
and MUL; E only DIV; S and bits 15:6 only a store to the flags; the overflow register only SHL, SHR, ADD, SUB, MUL and a
DIV with a non-zero divisor (decisions D8, D10; places of the flags: D3; DIV is code 13: D4). R128: both registers take
what the ALU answers, stored or discarded, but that a store to the flags replaces them. -/
def Obligations.FlagsAndOverflowFrame : Prop :=
  (∀ (i : Instr) (s t : State), exec i s = .next t →
    (i.fields.dest ≠ .flags → i.fields.dest ≠ .flags4 →
      (∀ k, 5 ≤ k → t.core.flags.getLsbD k = s.core.flags.getLsbD k) ∧
      (i.writesV = false → t.core.flags.getLsbD 3 = s.core.flags.getLsbD 3) ∧
      (i.aluCode ≠ 0xD → t.core.flags.getLsbD 4 = s.core.flags.getLsbD 4) ∧
      (i.aluCode = 0 → t.core.flags = s.core.flags)) ∧
    (i.writesOflow = false → t.core.oflow = s.core.oflow) ∧
    (i.aluCode = 0xD → s.srcValue i.fields = 0 → t.core.oflow = s.core.oflow)) ∧
  (∀ (s : State) (f : Fields) (out : AluOut),
    (s.finish f out).core.oflow = out.oflow ∧
    (s.finish f out).core.flags =
      if (s.latch out.flags out.oflow).stores f = true ∧ (f.dest = .flags ∨ f.dest = .flags4) then out.result
      else out.flags)

/-- R60: an instruction without a memory destination changes no word of local memory, no other device, and no control
slot of the processor but `ih` when that is its destination. -/
def Obligations.NoMemoryDestinationFrame : Prop :=
  ∀ (i : Instr) (s t : State), exec i s = .next t → i.fields.dest.isMem = false →
    (∀ a, t.dev.load a = s.dev.load a) ∧ t.others = s.others ∧ t.dev.params = s.dev.params ∧
    t.dev.initDevice = s.dev.initDevice ∧ t.dev.mappedBlock = s.dev.mappedBlock ∧ t.dev.status = s.dev.status ∧
    (i.fields.dest ≠ .ih → t.dev.handler = s.dev.handler)

/-- R60, R43: an instruction with a local memory destination changes no word but the one at its destination address, no
word of the ROM region, no other device and no control slot. -/
def Obligations.LocalDestinationFrame : Prop :=
  ∀ (i : Instr) (s t : State) (r : Reg), exec i s = .next t → i.fields.dest = .mem r → r.isLocal = true →
    (∀ a, s.dev.index a ≠ s.dev.index (s.dstAddr i.fields r) → t.dev.load a = s.dev.load a) ∧
    (∀ a, s.dev.index a < s.dev.params.romEnd → t.dev.load a = s.dev.load a) ∧
    t.others = s.others ∧ t.dev.params = s.dev.params ∧ t.dev.initDevice = s.dev.initDevice ∧
    t.dev.mappedBlock = s.dev.mappedBlock ∧ t.dev.status = s.dev.status ∧ t.dev.handler = s.dev.handler

/-- R60, R47, R49, R175 (decision D19 for block space; that slot 2 keeps its word also when it is the own slot
addressed: decision D22, notes/assumptions/24.md): an instruction with a banked destination changes no word of its own
local memory and not its own init-device slot; a write to its own slots reaches no other device, and only the slot
addressed; a write to a connected device reaches no device of another id and none of the writer's own slots; a control
write changes no word of that device's memory, a block write nothing of it but the word at its window address. -/
def Obligations.BankedDestinationFrame : Prop :=
  ∀ (i : Instr) (s t : State) (r : Reg) (target : BusTarget), exec i s = .next t → i.fields.dest = .mem r →
    r.isLocal = false → target = busTarget (s.dstAddr i.fields r) →
    (∀ a, t.dev.load a = s.dev.load a) ∧ t.dev.params = s.dev.params ∧ t.dev.initDevice = s.dev.initDevice ∧
    (∀ slot, target = .own slot → t.others = s.others ∧
      (slot ≠ 3 → t.dev.mappedBlock = s.dev.mappedBlock) ∧ (slot ≠ 4 → t.dev.status = s.dev.status) ∧
      (slot ≠ 5 → t.dev.handler = s.dev.handler)) ∧
    (∀ index slot, target = .control index slot → t.dev = s.dev ∧
      (∀ k, s.connectedId index ≠ some k → findNode k t.others = findNode k s.others) ∧
      (∀ k m n, findNode k s.others = some m → findNode k t.others = some n → n.dev.mem = m.dev.mem)) ∧
    (∀ index w, target = .block index w → t.dev = s.dev ∧
      (∀ k, s.connectedId index ≠ some k → findNode k t.others = findNode k s.others) ∧
      (∀ k m n, findNode k s.others = some m → findNode k t.others = some n →
        n.kind = m.kind ∧ n.dev = { m.dev with mem := n.dev.mem } ∧
        ∀ a, m.dev.index a ≠ m.dev.index (m.dev.windowAddr w) → n.dev.load a = m.dev.load a))

/-- R18, R131: the run state changes only in a halt: a pc-to-pc instruction that goes back to its own address, with the
local word at `R[1]` as the code. -/
def Obligations.OnlyASelfJumpHalts : Prop :=
  ∀ (i : Instr) (s t : State), exec i s = .next t → t.core.run ≠ s.core.run →
    i.fields.source = .pc ∧ i.fields.dest = .pc ∧ t.core.pc = s.core.pc ∧
    t.core.run = .halted (t.dev.load t.core.r1)

/-! ## Local memory and the bus -/

/-- R44, R45, R43, R20 (decisions D2, D26): a word read after a local store is the word stored if the two addresses name
the same index and that is no ROM, and else what it was. -/
def Obligations.LoadAfterStore : Prop :=
  ∀ (d : Device) (a b v : Word),
    (d.store a v).load b =
      if d.params.addressWidth ≠ 0 ∧ d.params.romEnd ≤ d.index a ∧ d.index b = d.index a then v else d.load b

/-- R47 (block space: decision D19): where a bus address leads, by its number. -/
def Obligations.BusAddressSplit : Prop :=
  ∀ a : Word,
    (a.toNat < 16 → busTarget a = .own (BitVec.ofNat 4 a.toNat)) ∧
    (16 ≤ a.toNat → a.toNat < 4096 →
      busTarget a = .control (BitVec.ofNat 8 (a.toNat / 16)) (BitVec.ofNat 4 (a.toNat % 16))) ∧
    (4096 ≤ a.toNat → busTarget a = .block (BitVec.ofNat 8 (a.toNat / 256)) (BitVec.ofNat 8 (a.toNat % 256)))

/-- R171: the gate lets in the owner, and the init device of a claimed device while it is halted. Any other access is
dropped: control and block reads answer 0, control writes but for the claim slot and block writes do nothing. -/
def Obligations.GateDropsOtherAccesses : Prop :=
  ∀ (n : Node) (src : Word) (draw : Nat),
    (n.admits src draw = true ↔
      src = n.id ∨ (n.dev.initDevice ≠ 0 ∧ src = n.dev.initDevice ∧ n.halted draw = true)) ∧
    (n.admits src draw = false →
      (∀ slot, n.ctlRead src slot draw = 0) ∧ (∀ w, n.blockRead src w draw = 0) ∧
      (∀ slot v, slot ≠ 2 → n.ctlWrite src slot v draw = n) ∧ (∀ w v, n.blockWrite src w v draw = n))

/-- R176, R22: an admitted issuer reads the parameters from slots 0 and 1; no write to them changes anything. -/
def Obligations.ReadOnlySlots : Prop :=
  ∀ (n : Node) (src v : Word) (draw : Nat),
    n.ctlWrite src 0 v draw = n ∧ n.ctlWrite src 1 v draw = n ∧
    (n.admits src draw = true →
      n.ctlRead src 0 draw = n.dev.params.id ∧
      n.ctlRead src 1 draw = BitVec.ofNat 16 (n.dev.params.bankIndex.toNat * 256 + n.dev.params.deviceType.toNat))

/-- R174, R175 (decisions D21, D22): a foreign write claims an unclaimed device for its writer, whatever it writes; then
only the init device rewrites the slot, while the device is halted; the owner never does. -/
def Obligations.SlotTwoClaims : Prop :=
  ∀ (n : Node) (src v w : Word) (draw : Nat),
    (w = if src = n.id then n.dev.initDevice
      else if n.dev.initDevice = 0 then src
      else if src = n.dev.initDevice ∧ n.halted draw = true then v
      else n.dev.initDevice) →
    n.ctlWrite src 2 v draw = { n with dev := { n.dev with initDevice := w } }

/-- R177, R172, R173, R178 (stored widths: decision D24): an admitted write to slot 3, 4 or 5 changes that slot alone,
slot 4 taking the low byte, and an admitted issuer reads back what is stored there; slot 2 reads the init device. Slots
6 to 15 of a leaf device (hook layout: decision D23; free answers: notes/assumptions/5.md): a write changes no described
state, and an admitted read answers the free value of the slot's read hook, or 0 where there is none. A leaf device is
halted as its platform states (decision D25, notes/assumptions/6.md). -/
def Obligations.AdmittedSlotsReadBack : Prop :=
  ∀ (n : Node) (src v : Word) (draw : Nat),
    (n.admits src draw = true →
      n.ctlWrite src 3 v draw = { n with dev := { n.dev with mappedBlock := v } } ∧
      n.ctlWrite src 4 v draw = { n with dev := { n.dev with status := BitVec.ofNat 8 (v.toNat % 256) } } ∧
      n.ctlWrite src 5 v draw = { n with dev := { n.dev with handler := v } } ∧
      (n.ctlWrite src 3 v draw).ctlRead src 3 draw = v ∧
      (n.ctlWrite src 4 v draw).ctlRead src 4 draw = v &&& 0x00FF ∧
      (n.ctlWrite src 5 v draw).ctlRead src 5 draw = v ∧
      n.ctlRead src 2 draw = n.dev.initDevice) ∧
    (∀ k, n.kind = .leaf k →
      (∀ slot : BitVec 4, 6 ≤ slot.toNat → n.ctlWrite src slot v draw = n ∧
        (n.admits src draw = true →
          n.ctlRead src slot draw = if slot ∈ k.readHooks then Config.leafSlotRead n.id slot draw else 0)) ∧
      (∀ b, k.halted = .fixed b → n.halted draw = b) ∧
      (k.halted = .free → n.halted draw = Config.leafHalted n.id draw))

/-- R179, R180, R29 (slot numbers: decision D23; the owner refused: D22; slot 6: D34; slot 7: D17): the init device of a
halted processor, and nobody else, uses slots 6 to 15: the issuer is not the owner, the processor is claimed, by the
issuer, and its run state is halted (R18). It reads memory size, pc and `R1` to `R6` from slots 6 and 8 to 14 and 0 from
slots 7 and 15; its write changes the one register of the slot, the pc slot setting `next` too, and nothing in slots 6,
7 and 15; it reads back what it wrote. Flags, overflow register and run state are out of reach. Any other issuer, the
owner among them, reads 0 and changes nothing. -/
def Obligations.IntrospectionSlots : Prop :=
  ∀ (n : Node) (c : Core) (src v : Word) (slot : BitVec 4) (draw : Nat), n.kind = .processor c →
    (n.admitsIntrospection src draw = true ↔
      src ≠ n.id ∧ n.dev.initDevice ≠ 0 ∧ src = n.dev.initDevice ∧ ∃ code, c.run = .halted code) ∧
    (n.halted draw = true ↔ ∃ code, c.run = .halted code) ∧
    (n.admitsIntrospection src draw = true →
      n.ctlRead src 6 draw = BitVec.ofNat 16 (2 ^ n.dev.params.addressWidth) ∧ n.ctlRead src 7 draw = 0 ∧
      n.ctlRead src 8 draw = c.pc ∧ n.ctlRead src 9 draw = c.r1 ∧ n.ctlRead src 10 draw = c.r2 ∧
      n.ctlRead src 11 draw = c.r3 ∧ n.ctlRead src 12 draw = c.r4 ∧ n.ctlRead src 13 draw = c.r5 ∧
      n.ctlRead src 14 draw = c.r6 ∧ n.ctlRead src 15 draw = 0) ∧
    (n.admitsIntrospection src draw = true →
      n.ctlWrite src 6 v draw = n ∧ n.ctlWrite src 7 v draw = n ∧
      n.ctlWrite src 8 v draw = { n with kind := .processor { c with pc := v, next := v + 2 } } ∧
      n.ctlWrite src 9 v draw = { n with kind := .processor { c with r1 := v } } ∧
      n.ctlWrite src 10 v draw = { n with kind := .processor { c with r2 := v } } ∧
      n.ctlWrite src 11 v draw = { n with kind := .processor { c with r3 := v } } ∧
      n.ctlWrite src 12 v draw = { n with kind := .processor { c with r4 := v } } ∧
      n.ctlWrite src 13 v draw = { n with kind := .processor { c with r5 := v } } ∧
      n.ctlWrite src 14 v draw = { n with kind := .processor { c with r6 := v } } ∧
      n.ctlWrite src 15 v draw = n) ∧
    (n.admitsIntrospection src draw = true → 8 ≤ slot.toNat → slot.toNat ≤ 14 →
      (n.ctlWrite src slot v draw).ctlRead src slot draw = v ∧
      ∃ c', n.ctlWrite src slot v draw = { n with kind := .processor c' } ∧ c'.flags = c.flags ∧
        c'.oflow = c.oflow ∧ c'.run = c.run) ∧
    (n.admitsIntrospection src draw = false → 6 ≤ slot.toNat →
      n.ctlRead src slot draw = 0 ∧ n.ctlWrite src slot v draw = n) ∧
    (6 ≤ slot.toNat → n.ctlRead n.id slot draw = 0 ∧ n.ctlWrite n.id slot v draw = n)

/-- R181, R182 (decision D19): a word that an admitted issuer writes through a device's window, above its ROM region, is
read back through the window and is the device's local word at `mappedBlock * 256 + w`. -/
def Obligations.BlockWindowReadsBack : Prop :=
  ∀ (n : Node) (src v : Word) (w : Byte) (draw : Nat), n.admits src draw = true →
    n.dev.params.addressWidth ≠ 0 → n.dev.params.romEnd ≤ n.dev.index (n.dev.windowAddr w) →
    (n.blockWrite src w v draw).blockRead src w draw = v ∧
    (n.blockWrite src w v draw).dev.load (BitVec.ofNat 16 (n.dev.mappedBlock.toNat * 256 + w.toNat)) = v

/-- R183 (decision D20): through an index with no device a banked read answers 0 and a banked write does nothing. -/
def Obligations.AbsentDeviceReadsZero : Prop :=
  ∀ (s : State) (a v : Word) (index : Byte), s.deviceAt index = none →
    ((∃ slot, busTarget a = .control index slot) ∨ (∃ w, busTarget a = .block index w)) →
    s.busRead a = (0, s) ∧ s.busWrite a v = s

/-- R185, R176, R177, R17, R27 (`ih` is slot 5: decision D17; the owner writes neither slot 2 nor slots 6 to 15: D22;
stored widths: D24): at bus addresses 0 to 5 a processor reads its own slots 0 to 5, the handler slot being `ih`. Its
write to address 3, 4 or 5 changes that slot alone, one to address 0, 1 or 2 nothing. At addresses 6 to 15 it reads 0
and changes nothing. -/
def Obligations.OwnSlotsOnTheBus : Prop :=
  ∀ (s : State) (v : Word),
    (s.busRead 0).1 = s.dev.params.id ∧ (s.busRead 1).1 = s.dev.params.bankIndex ++ s.dev.params.deviceType ∧
    (s.busRead 2).1 = s.dev.initDevice ∧ (s.busRead 3).1 = s.dev.mappedBlock ∧
    (s.busRead 4).1 = s.dev.status.setWidth 16 ∧ (s.busRead 5).1 = s.dev.handler ∧
    s.busWrite 0 v = s ∧ s.busWrite 1 v = s ∧ s.busWrite 2 v = s ∧
    s.busWrite 3 v = { s with dev := { s.dev with mappedBlock := v } } ∧
    s.busWrite 4 v = { s with dev := { s.dev with status := BitVec.ofNat 8 (v.toNat % 256) } } ∧
    s.busWrite 5 v = s.setHandler v ∧
    (∀ a : Word, 6 ≤ a.toNat → a.toNat < 16 → (s.busRead a).1 = 0 ∧ s.busWrite a v = s)

/-! ## The step, the halt, the schedule -/

/-- R120, R124, R139: the step of a running processor is the instruction at its pc, from its own local memory, executed;
then the turn is handed on (notes/assumptions/7.md). Handing on rearranges the devices of the system and changes none,
so that every id still names the same device; for a processor alone on its system it changes nothing. A step at a halted
processor only hands on (notes/assumptions/9.md). -/
def Obligations.StepRunsTheDecodedInstruction : Prop :=
  (∀ (s : State) (i : Instr), s.core.run = .running →
    decode (s.dev.load s.core.pc) (s.dev.load (s.core.pc + 1)) = i → i.WellFormed →
    (∀ t, exec i s = .next t → step s = .next t.handOver ∧ (t.others = [] → step s = .next t)) ∧
    (∀ r, exec i s = .refused r → step s = .refused r) ∧ (∀ e, exec i s = .fault e → step s = .fault e)) ∧
  (∀ t : State, List.Perm t.handOver.nodes t.nodes ∧ (t.Inv → ∀ id, t.handOver.node id = t.node id)) ∧
  (∀ (s t : State) (code : Word), s.core.run = .halted code → step s = .next t →
    List.Perm t.nodes s.nodes ∧ (s.Inv → ∀ id, t.node id = s.node id))

/-- R18, R120, U15 (notes/assumptions/9.md): the system stops exactly when the processor with the turn is halted and no
other runs, and the stop names its halt code. -/
def Obligations.StopsOnlyWhenAllHalted : Prop :=
  ∀ (s : State) (e : Fault),
    step s = .fault e ↔
      ∃ code, e = .halted code ∧ s.core.run = .halted code ∧
        ∀ n ∈ s.others, ∀ c, n.kind = .processor c → c.run ≠ .running

/-- R218: a step is refused exactly when a running processor meets the reserved combination. -/
def Obligations.RefusedOnlyForReservedIncrement : Prop :=
  ∀ (s : State) (r : Refusal),
    step s = .refused r ↔
      r = .reservedIncrement ∧ s.core.run = .running ∧ s.fetched.fields.reserved = true

/-- R120 (the schedule: notes/assumptions/7.md): after a step the turn does not rest with a halted processor while
another runs. -/
def Obligations.TurnGoesToARunningProcessor : Prop :=
  ∀ (s t : State), step s = .next t → t.core.run ≠ .running →
    ∀ n ∈ t.others, ∀ c, n.kind = .processor c → c.run ≠ .running

/-! ## Invariants of the system -/

/-- Every step keeps the system invariant: `next = pc + 2` between steps in every processor (R33), legal parameters and
distinct ids (R6), and memories in the model's own canonical form inside their address width (notes/assumptions/1.md and
2.md). -/
def Obligations.StepKeepsTheInvariant : Prop :=
  ∀ s t : State, s.Inv → step s = .next t → t.Inv

/-- The reset state satisfies the system invariant (its parameters: notes/assumptions/3.md; the canonical form of its
memory: 1.md and 2.md). -/
def Obligations.ResetSatisfiesTheInvariant : Prop :=
  State.reset.Inv

/-- R220 to R222 (decision D27; a processor with no local memory is refused by R6; canonical memories:
notes/assumptions/1.md and 2.md; which processor is first: 27.md): every system that construction gives satisfies the
invariant; every device is unclaimed with slots 3 to 5 zero and its image loaded from word 0, 0 elsewhere; every
processor has its registers at reset; the system holds no other device. -/
def Obligations.ConstructedSystemsAreSound : Prop :=
  ∀ (first : DeviceSpec) (rest : List DeviceSpec) (s : State), construct first rest = .ok s →
    s.Inv ∧ s.core = ⟨0, 0, 0, 0, 0, 0, 0, 2, 0, 0, .running⟩ ∧ s.dev.IsReset first.params first.image ∧
    s.others.length = rest.length ∧
    ∀ x ∈ rest, ∃ n, s.node x.params.id = some n ∧ n.dev.IsReset x.params x.image ∧
      (x.kind = .processor → n.kind = .processor ⟨0, 0, 0, 0, 0, 0, 0, 2, 0, 0, .running⟩) ∧
      ∀ k, x.kind = .leaf k → n.kind = .leaf k

/-- R20, R33, R22, R23 (writes below `romEnd` dropped on every path: decision D26): no step changes a device's
parameters, and so what its slots 0 and 1 read, nor a word below its `romEnd`, by any path. -/
def Obligations.RomAndParametersAreConstant : Prop :=
  ∀ (s t : State) (id : Word) (n : Node), s.Inv → step s = .next t → s.node id = some n →
    ∃ n', t.node id = some n' ∧ n'.dev.params = n.dev.params ∧
      ∀ k, k < n.dev.params.romEnd → n'.dev.mem.read k = n.dev.mem.read k

/-- R18, R120 (decision D18): no step brings a halted processor back, and none changes its flags or overflow register
(R29: no slot reaches them). -/
def Obligations.HaltedProcessorsStayHalted : Prop :=
  ∀ (s t : State) (id : Word) (n : Node) (c : Core) (code : Word), s.Inv → step s = .next t →
    s.node id = some n → n.kind = .processor c → c.run = .halted code →
    ∃ n' c', t.node id = some n' ∧ n'.kind = .processor c' ∧ c'.run = .halted code ∧
      c'.flags = c.flags ∧ c'.oflow = c.oflow

/-- R171, R174, R215 (atomic steps: decision D28; the claim stores the writer's id: D21): a step of one processor
changes nothing of another that runs, but for the claim of an unclaimed one. -/
def Obligations.RunningProcessorsAreNotDisturbed : Prop :=
  ∀ (s t : State) (id : Word) (n : Node) (c : Core), s.Inv → step s = .next t → id ≠ s.dev.params.id →
    s.node id = some n → n.kind = .processor c → c.run = .running →
    t.node id = some n ∨
    (n.dev.initDevice = 0 ∧
      t.node id = some { n with dev := { n.dev with initDevice := s.dev.params.id } })

/-- R171, R202: an instruction learns nothing of a device that another has claimed. Two systems that differ only in that
device lead the processor to the same registers, control slots and local memory, and still differ only in that device;
and so does a whole step of the two, where the device is no running processor in either, to which the turn could go
(notes/assumptions/7.md). -/
def Obligations.ClaimedDevicesAreOpaqueToOthers : Prop :=
  ∀ (s t : State) (id : Word) (n m : Node), findNode id s.others = some n → m.id = id → id ≠ s.dev.params.id →
    n.dev.initDevice ≠ 0 → n.dev.initDevice ≠ s.dev.params.id →
    m.dev.initDevice ≠ 0 → m.dev.initDevice ≠ s.dev.params.id →
    (∀ i, exec i s = .next t →
      exec i { s with others := updateNode id (fun _ => m) s.others } =
        .next { t with others := updateNode id (fun _ => m) t.others }) ∧
    (n.isRunning = false → m.isRunning = false → step s = .next t →
      step { s with others := updateNode id (fun _ => m) s.others } =
        .next { t with others := updateNode id (fun _ => m) t.others })

/-! ## Reset and loading -/

/-- R220, R221 (decision D27, notes/assumptions/3.md for the parameters): the state right after reset, and that its
first instruction is fetched at local addresses 0 and 1. -/
def Obligations.ResetState : Prop :=
  State.reset.core = ⟨0, 0, 0, 0, 0, 0, 0, 2, 0, 0, .running⟩ ∧
  State.reset.dev.initDevice = 0 ∧ State.reset.dev.mappedBlock = 0 ∧ State.reset.dev.status = 0 ∧
  State.reset.dev.handler = 0 ∧ (∀ a, State.reset.dev.load a = 0) ∧
  State.reset.fetched = decode (State.reset.dev.load 0) (State.reset.dev.load 1)

/-- R42: the loader packs a byte stream big-endian: byte `2i` is the high byte of word `i`, byte `2i + 1` its low byte;
a stream of odd length is refused (R222, decision D27). -/
def Obligations.LoaderPacksBigEndian : Prop :=
  ∀ bytes : List Byte,
    (bytes.length % 2 = 1 → packImage bytes = .error .oddImage) ∧
    (bytes.length % 2 = 0 → ∃ ws, packImage bytes = .ok ws ∧ ws.length = bytes.length / 2 ∧
      ∀ k, k < ws.length →
        (ws.getD k 0).extractLsb' 8 8 = bytes.getD (2 * k) 0 ∧
        (ws.getD k 0).extractLsb' 0 8 = bytes.getD (2 * k + 1) 0)

/-! ## Operand reads -/

/-- R91 to R98, R101 to R106, R99, R79 (decisions D12, D13, D14, D15): what each operand code reads. The source value:
the pc or a register with the immediate added, the immediate, the local word or the bus word at the pointer plus the
immediate, the flags and `ih` with none added. The destination value: the pc, a register, the flags (codes 4 and 8),
`ih`, the local word or, after the source is read, the bus word at the pointer plus the offset, one lower with push. A
bus word is what the device connected at the index answers this processor to a control read or a block read (R48; block
space: decision D19). The two reads change no register, no memory and no device. -/
def Obligations.OperandsReadTheirCodes : Prop :=
  ∀ (s : State) (f : Fields),
    ((f.source.code = 0 → s.srcValue f = s.core.pc + f.imm) ∧
      (f.source.code = 1 → s.srcValue f = s.dev.load (s.core.r1 + f.imm)) ∧
      (f.source.code = 2 → s.srcValue f = s.dev.load (s.core.r2 + f.imm)) ∧
      (f.source.code = 3 → s.srcValue f = s.dev.load (s.core.r3 + f.imm)) ∧
      (f.source.code = 4 → s.srcValue f = f.imm) ∧
      (f.source.code = 5 → s.srcValue f = s.core.r1 + f.imm) ∧
      (f.source.code = 6 → s.srcValue f = s.core.r2 + f.imm) ∧
      (f.source.code = 7 → s.srcValue f = s.core.r3 + f.imm) ∧
      (f.source.code = 8 → s.srcValue f = s.core.flags) ∧
      (f.source.code = 9 → s.srcValue f = (s.busRead (s.core.r4 + f.imm)).1) ∧
      (f.source.code = 10 → s.srcValue f = (s.busRead (s.core.r5 + f.imm)).1) ∧
      (f.source.code = 11 → s.srcValue f = (s.busRead (s.core.r6 + f.imm)).1) ∧
      (f.source.code = 12 → s.srcValue f = s.dev.handler) ∧
      (f.source.code = 13 → s.srcValue f = s.core.r4 + f.imm) ∧
      (f.source.code = 14 → s.srcValue f = s.core.r5 + f.imm) ∧
      (f.source.code = 15 → s.srcValue f = s.core.r6 + f.imm)) ∧
    (∀ x : Word, x = f.offset.signExtend 16 - (if f.increment then 1 else 0) →
      (f.dest.code = 0 → s.dstValue f = s.core.pc) ∧
      (f.dest.code = 1 → s.dstValue f = s.dev.load (s.core.r1 + x)) ∧
      (f.dest.code = 2 → s.dstValue f = s.dev.load (s.core.r2 + x)) ∧
      (f.dest.code = 3 → s.dstValue f = s.dev.load (s.core.r3 + x)) ∧
      (f.dest.code = 4 → s.dstValue f = s.core.flags) ∧
      (f.dest.code = 5 → s.dstValue f = s.core.r1) ∧
      (f.dest.code = 6 → s.dstValue f = s.core.r2) ∧
      (f.dest.code = 7 → s.dstValue f = s.core.r3) ∧
      (f.dest.code = 8 → s.dstValue f = s.core.flags) ∧
      (f.dest.code = 9 → s.dstValue f = ((s.srcRead f).2.busRead (s.core.r4 + x)).1) ∧
      (f.dest.code = 10 → s.dstValue f = ((s.srcRead f).2.busRead (s.core.r5 + x)).1) ∧
      (f.dest.code = 11 → s.dstValue f = ((s.srcRead f).2.busRead (s.core.r6 + x)).1) ∧
      (f.dest.code = 12 → s.dstValue f = s.dev.handler) ∧
      (f.dest.code = 13 → s.dstValue f = s.core.r4) ∧
      (f.dest.code = 14 → s.dstValue f = s.core.r5) ∧
      (f.dest.code = 15 → s.dstValue f = s.core.r6)) ∧
    (∀ a index n, s.Connects index n →
      (∀ slot, busTarget a = .control index slot → (s.busRead a).1 = n.ctlRead s.dev.params.id slot s.draws) ∧
      (∀ w, busTarget a = .block index w → (s.busRead a).1 = n.blockRead s.dev.params.id w s.draws)) ∧
    ((s.srcRead f).2.core = s.core ∧ (s.srcRead f).2.dev = s.dev ∧ (s.srcRead f).2.others = s.others) ∧
    (s.afterReads f).core = s.core ∧ (s.afterReads f).dev = s.dev ∧ (s.afterReads f).others = s.others
end

