-- ==== Sys2Proof/Laws/Memory.lean ====
section
/-! SUPPORT. The laws of memory: read after write, the canonical form kept by every operation, and the same for a
device's local access. -/

namespace Sys2Proof.Machine

open Sys2Proof

/-! ## Reading -/

@[simp] theorem Memory.read_nil (i : Nat) : Memory.read [] i = 0 := rfl

@[simp] theorem Memory.read_cons_self (i : Nat) (w : Word) (m : Memory) : Memory.read ((i, w) :: m) i = w := by
  simp [Memory.read]

theorem Memory.read_cons_ne {i k : Nat} (h : i ≠ k) (w : Word) (m : Memory) :
    Memory.read ((k, w) :: m) i = Memory.read m i := by
  simp [Memory.read, h]

/-- An index that no entry names reads as 0. -/
theorem Memory.read_of_not_mem : ∀ (m : Memory) (i : Nat), (∀ x ∈ m, x.1 ≠ i) → m.read i = 0
  | [], _, _ => rfl
  | (k, w) :: m, i, h => by
    have hk : i ≠ k := fun e => h (k, w) (by simp) e.symm
    rw [Memory.read_cons_ne hk]
    exact Memory.read_of_not_mem m i fun x hx => h x (by simp [hx])

/-! ## Read after write -/

theorem Memory.read_erase (m : Memory) (i j : Nat) :
    (m.erase i).read j = if j = i then 0 else m.read j := by
  induction m with
  | nil => simp [Memory.erase]
  | cons x m ih =>
    obtain ⟨k, w⟩ := x
    simp only [Memory.erase] at ih ⊢
    by_cases hk : k = i
    · subst hk
      simp only [List.filter_cons, bne_self_eq_false, Bool.false_eq_true, if_false, ih, Memory.read]
      by_cases hj : j = k <;> simp [hj]
    · have hb : ((k, w).1 != i) = true := by simpa using hk
      simp only [List.filter_cons, hb, if_true, Memory.read, ih]
      by_cases hj : j = k
      · subst hj; simp [hk]
      · simp [hj]

theorem Memory.read_insert (m : Memory) (i j : Nat) (v : Word) :
    (m.insert i v).read j = if j = i then v else m.read j := by
  induction m with
  | nil => simp [Memory.insert, Memory.read]
  | cons x m ih =>
    obtain ⟨k, w⟩ := x
    simp only [Memory.insert]
    by_cases h1 : i < k
    · by_cases hj : j = i <;> simp [h1, Memory.read, hj]
    · by_cases h2 : i = k
      · subst h2
        by_cases hj : j = i <;> simp [Memory.read, hj]
      · simp only [h1, h2, if_false, Memory.read, ih]
        by_cases hk : j = k
        · subst hk; simp [Ne.symm h2]
        · simp [hk]

/-- Read after write: the index written reads as the value written, every other index as before. -/
theorem Memory.read_write (m : Memory) (i j : Nat) (v : Word) :
    (m.write i v).read j = if j = i then v else m.read j := by
  unfold Memory.write
  split_ifs with hv hj hj
  · subst hv hj; simp [Memory.read_erase]
  · simp [Memory.read_erase, hj]
  · simp [Memory.read_insert, hj]
  · simp [Memory.read_insert, hj]

@[simp] theorem Memory.read_write_self (m : Memory) (i : Nat) (v : Word) : (m.write i v).read i = v := by
  simp [Memory.read_write]

theorem Memory.read_write_ne (m : Memory) {i j : Nat} (h : j ≠ i) (v : Word) : (m.write i v).read j = m.read j := by
  simp [Memory.read_write, h]

/-! ## The canonical form -/

theorem Memory.wf_nil : Memory.wf [] := ⟨List.Pairwise.nil, fun _ h => absurd h (List.not_mem_nil)⟩

theorem Memory.mem_erase {m : Memory} {i : Nat} {x : Nat × Word} (h : x ∈ m.erase i) : x ∈ m :=
  List.mem_of_mem_filter h

theorem Memory.wf_erase {m : Memory} (h : m.wf) (i : Nat) : (m.erase i).wf :=
  ⟨h.1.filter _, fun x hx => h.2 x (Memory.mem_erase hx)⟩

theorem Memory.mem_insert {m : Memory} {i : Nat} {v : Word} {x : Nat × Word} (h : x ∈ m.insert i v) :
    x = (i, v) ∨ x ∈ m := by
  induction m with
  | nil => simpa [Memory.insert] using h
  | cons y m ih =>
    obtain ⟨k, w⟩ := y
    simp only [Memory.insert] at h
    split_ifs at h <;> simp only [List.mem_cons] at h ⊢ <;> tauto

theorem Memory.wf_insert {m : Memory} (h : m.wf) (i : Nat) {v : Word} (hv : v ≠ 0) : (m.insert i v).wf := by
  refine ⟨?_, fun x hx => ?_⟩
  · have hp := h.1
    clear h
    induction m with
    | nil => simp [Memory.insert]
    | cons y m ih =>
      obtain ⟨k, w⟩ := y
      rw [List.pairwise_cons] at hp
      simp only [Memory.insert]
      split_ifs with h1 h2
      · refine List.pairwise_cons.2 ⟨fun x hx => ?_, List.pairwise_cons.2 hp⟩
        rcases List.mem_cons.1 hx with rfl | hx
        · exact h1
        · exact h1.trans (hp.1 x hx)
      · subst h2
        exact List.pairwise_cons.2 hp
      · refine List.pairwise_cons.2 ⟨fun x hx => ?_, ih hp.2⟩
        rcases Memory.mem_insert hx with rfl | hx
        · show k < i; omega
        · exact hp.1 x hx
  · rcases Memory.mem_insert hx with rfl | hx
    · exact hv
    · exact h.2 x hx

/-- A write keeps the canonical form. -/
theorem Memory.wf_write {m : Memory} (h : m.wf) (i : Nat) (v : Word) : (m.write i v).wf := by
  unfold Memory.write
  split_ifs with hv
  · exact Memory.wf_erase h i
  · exact Memory.wf_insert h i hv

/-- A write lists only the index written beside what was listed. -/
theorem Memory.mem_write {m : Memory} {i : Nat} {v : Word} {x : Nat × Word} (h : x ∈ m.write i v) :
    x.1 = i ∨ x ∈ m := by
  unfold Memory.write at h
  split_ifs at h
  · exact .inr (Memory.mem_erase h)
  · exact (Memory.mem_insert h).imp_left (congrArg Prod.fst)

theorem Memory.le_of_mem_ofWordsFrom : ∀ {ws : List Word} {i : Nat} {x : Nat × Word},
    x ∈ Memory.ofWordsFrom i ws → i ≤ x.1 ∧ x.1 < i + ws.length
  | [], _, _, h => by simp [Memory.ofWordsFrom] at h
  | w :: ws, i, x, h => by
    simp only [Memory.ofWordsFrom] at h
    have tail : x ∈ Memory.ofWordsFrom (i + 1) ws → i ≤ x.1 ∧ x.1 < i + (w :: ws).length := fun hx => by
      have := Memory.le_of_mem_ofWordsFrom hx
      simp only [List.length_cons]; omega
    split_ifs at h
    · exact tail h
    · rcases List.mem_cons.1 h with rfl | h
      · simp
      · exact tail h

/-- A loaded image is in canonical form. -/
theorem Memory.wf_ofWordsFrom : ∀ (ws : List Word) (i : Nat), (Memory.ofWordsFrom i ws).wf
  | [], _ => Memory.wf_nil
  | w :: ws, i => by
    have ih := Memory.wf_ofWordsFrom ws (i + 1)
    simp only [Memory.ofWordsFrom]
    split_ifs with hw
    · exact ih
    · refine ⟨List.pairwise_cons.2 ⟨fun x hx => ?_, ih.1⟩, fun x hx => ?_⟩
      · have := (Memory.le_of_mem_ofWordsFrom hx).1
        show i < x.1; omega
      · rcases List.mem_cons.1 hx with rfl | hx
        · exact hw
        · exact ih.2 x hx

/-- Everything a loaded image reads as: its words from the start index up, 0 past its end (70_reset_and_hazards.md
R222). -/
theorem Memory.read_ofWordsFrom : ∀ (ws : List Word) (i k : Nat), (Memory.ofWordsFrom i ws).read (i + k) = ws.getD k 0
  | [], _, _ => by simp [Memory.ofWordsFrom]
  | w :: ws, i, 0 => by
    simp only [Memory.ofWordsFrom]
    split_ifs with hw
    · rw [Memory.read_of_not_mem]
      · simp [hw]
      · intro x hx
        have := Memory.le_of_mem_ofWordsFrom hx
        omega
    · simp [Memory.read]
  | w :: ws, i, k + 1 => by
    have ih := Memory.read_ofWordsFrom ws (i + 1) k
    rw [Nat.add_right_comm, Nat.add_assoc] at ih
    simp only [Memory.ofWordsFrom]
    split_ifs
    · simpa using ih
    · rw [Memory.read_cons_ne (by omega)]
      simpa using ih

/-! ## Local access -/

@[simp] theorem Device.store_params (d : Device) (a v : Word) : (d.store a v).params = d.params := by
  unfold Device.store; split_ifs <;> rfl

@[simp] theorem Device.store_initDevice (d : Device) (a v : Word) : (d.store a v).initDevice = d.initDevice := by
  unfold Device.store; split_ifs <;> rfl

@[simp] theorem Device.store_mappedBlock (d : Device) (a v : Word) : (d.store a v).mappedBlock = d.mappedBlock := by
  unfold Device.store; split_ifs <;> rfl

@[simp] theorem Device.store_status (d : Device) (a v : Word) : (d.store a v).status = d.status := by
  unfold Device.store; split_ifs <;> rfl

@[simp] theorem Device.store_handler (d : Device) (a v : Word) : (d.store a v).handler = d.handler := by
  unfold Device.store; split_ifs <;> rfl

/-- The index of an address lies in the local memory. -/
theorem Device.index_lt_memSize (d : Device) (a : Word) (h : d.params.addressWidth ≠ 0) : d.index a < d.memSize := by
  simp only [Device.index, Device.memSize, h, if_false]
  exact Nat.mod_lt _ (by positivity)

/-- Everything a local store can do: nothing, or one word of a local memory above the ROM region. -/
theorem Device.store_cases (d : Device) (a v : Word) :
    (d.store a v = d ∧ (d.params.addressWidth = 0 ∨ d.index a < d.params.romEnd)) ∨
    (d.store a v = { d with mem := d.mem.write (d.index a) v } ∧ d.params.addressWidth ≠ 0 ∧
      d.params.romEnd ≤ d.index a) := by
  unfold Device.store
  split_ifs with h1 h2
  · exact .inl ⟨rfl, .inl h1⟩
  · exact .inl ⟨rfl, .inr h2⟩
  · exact .inr ⟨rfl, h1, Nat.le_of_not_lt h2⟩

/-- A word below `romEnd` survives every store. -/
theorem Device.store_rom (d : Device) (a v : Word) {i : Nat} (h : i < d.params.romEnd) :
    (d.store a v).mem.read i = d.mem.read i := by
  rcases Device.store_cases d a v with ⟨e, _⟩ | ⟨e, _, hi⟩
  · rw [e]
  · rw [e]; exact Memory.read_write_ne _ (by omega) _

/-- A store changes no word at another index. -/
theorem Device.store_read_ne (d : Device) (a v : Word) {i : Nat} (h : i ≠ d.index a) :
    (d.store a v).mem.read i = d.mem.read i := by
  rcases Device.store_cases d a v with ⟨e, _⟩ | ⟨e, _⟩
  · rw [e]
  · rw [e]; exact Memory.read_write_ne _ h _

theorem Device.store_wf (d : Device) (a v : Word) (h : d.mem.wf) : (d.store a v).mem.wf := by
  rcases Device.store_cases d a v with ⟨e, _⟩ | ⟨e, _⟩
  · rw [e]; exact h
  · rw [e]; exact Memory.wf_write h _ _

theorem Device.store_inside (d : Device) (a v : Word) (h : ∀ x ∈ d.mem, x.1 < d.memSize) :
    ∀ x ∈ (d.store a v).mem, x.1 < (d.store a v).memSize := by
  rcases Device.store_cases d a v with ⟨e, _⟩ | ⟨e, hw, _⟩
  · rw [e]; exact h
  · rw [e]
    intro x hx
    rcases Memory.mem_write hx with hx | hx
    · rw [hx]; exact Device.index_lt_memSize d a hw
    · exact h x hx

@[simp] theorem Device.store_index (d : Device) (a v b : Word) : (d.store a v).index b = d.index b := by
  simp [Device.index]

@[simp] theorem Device.store_memSize (d : Device) (a v : Word) : (d.store a v).memSize = d.memSize := by
  simp [Device.memSize]

end Sys2Proof.Machine
end

