-- ==== Sys2Proof/Laws/State.lean ====
section
/-! SUPPORT. One lemma per field for each named update of the state, so that no later proof unfolds a record update. -/

namespace Sys2Proof.Machine

open Sys2Proof

/-! ## Registers of a processor -/

theorem Core.reg_setReg (c : Core) (r q : Reg) (v : Word) :
    (c.setReg r v).reg q = if q = r then v else c.reg q := by
  cases r <;> cases q <;> rfl

@[simp] theorem Core.reg_setReg_self (c : Core) (r : Reg) (v : Word) : (c.setReg r v).reg r = v := by
  cases r <;> rfl
@[simp] theorem Core.setReg_pc (c : Core) (r : Reg) (v : Word) : (c.setReg r v).pc = c.pc := by cases r <;> rfl
@[simp] theorem Core.setReg_next (c : Core) (r : Reg) (v : Word) : (c.setReg r v).next = c.next := by cases r <;> rfl
@[simp] theorem Core.setReg_flags (c : Core) (r : Reg) (v : Word) :
    (c.setReg r v).flags = c.flags := by cases r <;> rfl
@[simp] theorem Core.setReg_oflow (c : Core) (r : Reg) (v : Word) :
    (c.setReg r v).oflow = c.oflow := by cases r <;> rfl
@[simp] theorem Core.setReg_run (c : Core) (r : Reg) (v : Word) : (c.setReg r v).run = c.run := by cases r <;> rfl
@[simp] theorem Core.retire_reg (c : Core) (q : Reg) : c.retire.reg q = c.reg q := by cases q <;> rfl
@[simp] theorem Core.retire_pc (c : Core) : c.retire.pc = c.next := rfl
@[simp] theorem Core.retire_next (c : Core) : c.retire.next = c.next + 2 := rfl
@[simp] theorem Core.retire_flags (c : Core) : c.retire.flags = c.flags := rfl
@[simp] theorem Core.retire_oflow (c : Core) : c.retire.oflow = c.oflow := rfl
@[simp] theorem Core.retire_run (c : Core) : c.retire.run = c.run := rfl

/-! ## The state -/

/-! ### A general register -/

@[simp] theorem State.setReg_dev (s : State) (r : Reg) (v : Word) : (s.setReg r v).dev = s.dev := rfl
@[simp] theorem State.setReg_core_pc (s : State) (r : Reg) (v : Word) :
    (s.setReg r v).core.pc = s.core.pc := by simp [State.setReg]
@[simp] theorem State.setReg_core_next (s : State) (r : Reg) (v : Word) :
    (s.setReg r v).core.next = s.core.next := by simp [State.setReg]
@[simp] theorem State.setReg_core_flags (s : State) (r : Reg) (v : Word) :
    (s.setReg r v).core.flags = s.core.flags := by simp [State.setReg]
@[simp] theorem State.setReg_core_oflow (s : State) (r : Reg) (v : Word) :
    (s.setReg r v).core.oflow = s.core.oflow := by simp [State.setReg]
@[simp] theorem State.setReg_core_run (s : State) (r : Reg) (v : Word) :
    (s.setReg r v).core.run = s.core.run := by simp [State.setReg]
@[simp] theorem State.setReg_others (s : State) (r : Reg) (v : Word) : (s.setReg r v).others = s.others := rfl
@[simp] theorem State.setReg_draws (s : State) (r : Reg) (v : Word) : (s.setReg r v).draws = s.draws := rfl

theorem State.setReg_core_reg (s : State) (r q : Reg) (v : Word) :
    (s.setReg r v).core.reg q = if q = r then v else s.core.reg q := Core.reg_setReg s.core r q v

/-! ### `next` -/

@[simp] theorem State.setNext_dev (s : State) (v : Word) : (s.setNext v).dev = s.dev := rfl
@[simp] theorem State.setNext_core_reg (s : State) (v : Word) (q : Reg) :
    (s.setNext v).core.reg q = s.core.reg q := by cases q <;> rfl
@[simp] theorem State.setNext_core_pc (s : State) (v : Word) : (s.setNext v).core.pc = s.core.pc := rfl
@[simp] theorem State.setNext_core_next (s : State) (v : Word) : (s.setNext v).core.next = v := rfl
@[simp] theorem State.setNext_core_flags (s : State) (v : Word) : (s.setNext v).core.flags = s.core.flags := rfl
@[simp] theorem State.setNext_core_oflow (s : State) (v : Word) : (s.setNext v).core.oflow = s.core.oflow := rfl
@[simp] theorem State.setNext_core_run (s : State) (v : Word) : (s.setNext v).core.run = s.core.run := rfl
@[simp] theorem State.setNext_others (s : State) (v : Word) : (s.setNext v).others = s.others := rfl
@[simp] theorem State.setNext_draws (s : State) (v : Word) : (s.setNext v).draws = s.draws := rfl

/-! ### Flags -/

@[simp] theorem State.setFlags_dev (s : State) (v : Word) : (s.setFlags v).dev = s.dev := rfl
@[simp] theorem State.setFlags_core_reg (s : State) (v : Word) (q : Reg) :
    (s.setFlags v).core.reg q = s.core.reg q := by cases q <;> rfl
@[simp] theorem State.setFlags_core_pc (s : State) (v : Word) : (s.setFlags v).core.pc = s.core.pc := rfl
@[simp] theorem State.setFlags_core_next (s : State) (v : Word) : (s.setFlags v).core.next = s.core.next := rfl
@[simp] theorem State.setFlags_core_flags (s : State) (v : Word) : (s.setFlags v).core.flags = v := rfl
@[simp] theorem State.setFlags_core_oflow (s : State) (v : Word) : (s.setFlags v).core.oflow = s.core.oflow := rfl
@[simp] theorem State.setFlags_core_run (s : State) (v : Word) : (s.setFlags v).core.run = s.core.run := rfl
@[simp] theorem State.setFlags_others (s : State) (v : Word) : (s.setFlags v).others = s.others := rfl
@[simp] theorem State.setFlags_draws (s : State) (v : Word) : (s.setFlags v).draws = s.draws := rfl

/-! ### The interrupt-handler register -/

@[simp] theorem State.setHandler_dev_params (s : State) (v : Word) : (s.setHandler v).dev.params = s.dev.params := rfl
@[simp] theorem State.setHandler_dev_initDevice (s : State) (v : Word) :
    (s.setHandler v).dev.initDevice = s.dev.initDevice := rfl
@[simp] theorem State.setHandler_dev_mappedBlock (s : State) (v : Word) :
    (s.setHandler v).dev.mappedBlock = s.dev.mappedBlock := rfl
@[simp] theorem State.setHandler_dev_status (s : State) (v : Word) : (s.setHandler v).dev.status = s.dev.status := rfl
@[simp] theorem State.setHandler_dev_handler (s : State) (v : Word) : (s.setHandler v).dev.handler = v := rfl
@[simp] theorem State.setHandler_dev_mem (s : State) (v : Word) : (s.setHandler v).dev.mem = s.dev.mem := rfl
@[simp] theorem State.setHandler_core (s : State) (v : Word) : (s.setHandler v).core = s.core := rfl
@[simp] theorem State.setHandler_others (s : State) (v : Word) : (s.setHandler v).others = s.others := rfl
@[simp] theorem State.setHandler_draws (s : State) (v : Word) : (s.setHandler v).draws = s.draws := rfl

/-! ### A local store -/

@[simp] theorem State.storeLocal_dev (s : State) (a v : Word) : (s.storeLocal a v).dev = s.dev.store a v := rfl
@[simp] theorem State.storeLocal_core (s : State) (a v : Word) : (s.storeLocal a v).core = s.core := rfl
@[simp] theorem State.storeLocal_others (s : State) (a v : Word) : (s.storeLocal a v).others = s.others := rfl
@[simp] theorem State.storeLocal_draws (s : State) (a v : Word) : (s.storeLocal a v).draws = s.draws := rfl

/-! ### The ALU's latch -/

@[simp] theorem State.latch_dev (s : State) (F O : Word) : (s.latch F O).dev = s.dev := rfl
@[simp] theorem State.latch_core_reg (s : State) (F O : Word) (q : Reg) :
    (s.latch F O).core.reg q = s.core.reg q := by cases q <;> rfl
@[simp] theorem State.latch_core_pc (s : State) (F O : Word) : (s.latch F O).core.pc = s.core.pc := rfl
@[simp] theorem State.latch_core_next (s : State) (F O : Word) : (s.latch F O).core.next = s.core.next := rfl
@[simp] theorem State.latch_core_flags (s : State) (F O : Word) : (s.latch F O).core.flags = F := rfl
@[simp] theorem State.latch_core_oflow (s : State) (F O : Word) : (s.latch F O).core.oflow = O := rfl
@[simp] theorem State.latch_core_run (s : State) (F O : Word) : (s.latch F O).core.run = s.core.run := rfl
@[simp] theorem State.latch_others (s : State) (F O : Word) : (s.latch F O).others = s.others := rfl
@[simp] theorem State.latch_draws (s : State) (F O : Word) : (s.latch F O).draws = s.draws := rfl

/-! ### A draw -/

@[simp] theorem State.tick_dev (s : State) : (s.tick).dev = s.dev := rfl
@[simp] theorem State.tick_core (s : State) : (s.tick).core = s.core := rfl
@[simp] theorem State.tick_others (s : State) : (s.tick).others = s.others := rfl
@[simp] theorem State.tick_draws (s : State) : (s.tick).draws = s.draws + 1 := rfl

/-! ### Retirement -/

@[simp] theorem State.retire_dev (s : State) : (s.retire).dev = s.dev := rfl
@[simp] theorem State.retire_core_reg (s : State) (q : Reg) :
    (s.retire).core.reg q = s.core.reg q := by cases q <;> rfl
@[simp] theorem State.retire_core_pc (s : State) : (s.retire).core.pc = s.core.next := rfl
@[simp] theorem State.retire_core_next (s : State) : (s.retire).core.next = s.core.next + 2 := rfl
@[simp] theorem State.retire_core_flags (s : State) : (s.retire).core.flags = s.core.flags := rfl
@[simp] theorem State.retire_core_oflow (s : State) : (s.retire).core.oflow = s.core.oflow := rfl
@[simp] theorem State.retire_core_run (s : State) : (s.retire).core.run = s.core.run := rfl
@[simp] theorem State.retire_others (s : State) : (s.retire).others = s.others := rfl
@[simp] theorem State.retire_draws (s : State) : (s.retire).draws = s.draws + 1 := rfl

/-! ### Halt -/

@[simp] theorem State.halt_dev (s : State) : (s.halt).dev = s.dev := rfl
@[simp] theorem State.halt_core_reg (s : State) (q : Reg) : (s.halt).core.reg q = s.core.reg q := by cases q <;> rfl
@[simp] theorem State.halt_core_pc (s : State) : (s.halt).core.pc = s.core.pc := rfl
@[simp] theorem State.halt_core_next (s : State) : (s.halt).core.next = s.core.next := rfl
@[simp] theorem State.halt_core_flags (s : State) : (s.halt).core.flags = s.core.flags := rfl
@[simp] theorem State.halt_core_oflow (s : State) : (s.halt).core.oflow = s.core.oflow := rfl
@[simp] theorem State.halt_core_run (s : State) : (s.halt).core.run = .halted (s.dev.load (s.core.reg .r1)) := rfl
@[simp] theorem State.halt_others (s : State) : (s.halt).others = s.others := rfl
@[simp] theorem State.halt_draws (s : State) : (s.halt).draws = s.draws := rfl

end Sys2Proof.Machine
end

