-- ==== Sys2Proof/Laws/Bus.lean ====
section
/-! SUPPORT. The laws of the device bus: what an access to a device can change, and what a banked read or write can do
to the system (20_memory.md R47 to R50, 43_device_bus.md R170 to R188). -/

namespace Sys2Proof.Machine

open Sys2Proof

/-! ## Slots of a device -/

@[simp] theorem Device.slotWrite_params (d : Device) (slot : BitVec 4) (v : Word) :
    (d.slotWrite slot v).params = d.params := by
  unfold Device.slotWrite; split <;> rfl

@[simp] theorem Device.slotWrite_mem (d : Device) (slot : BitVec 4) (v : Word) : (d.slotWrite slot v).mem = d.mem := by
  unfold Device.slotWrite; split <;> rfl

@[simp] theorem Device.slotWrite_initDevice (d : Device) (slot : BitVec 4) (v : Word) :
    (d.slotWrite slot v).initDevice = d.initDevice := by
  unfold Device.slotWrite; split <;> rfl

@[simp] theorem Device.slotWrite_load (d : Device) (slot : BitVec 4) (v a : Word) :
    (d.slotWrite slot v).load a = d.load a := by
  simp [Device.load, Device.index]

@[simp] theorem Core.slotWrite_run (c : Core) (slot : BitVec 4) (v : Word) : (c.slotWrite slot v).run = c.run := by
  unfold Core.slotWrite; split <;> rfl

@[simp] theorem Core.slotWrite_flags (c : Core) (slot : BitVec 4) (v : Word) :
    (c.slotWrite slot v).flags = c.flags := by
  unfold Core.slotWrite; split <;> rfl

@[simp] theorem Core.slotWrite_oflow (c : Core) (slot : BitVec 4) (v : Word) :
    (c.slotWrite slot v).oflow = c.oflow := by
  unfold Core.slotWrite; split <;> rfl

/-- An introspection write leaves `next = pc + 2` (43_device_bus.md R180). -/
theorem Core.slotWrite_next (c : Core) (slot : BitVec 4) (v : Word) (h : c.next = c.pc + 2) :
    (c.slotWrite slot v).next = (c.slotWrite slot v).pc + 2 := by
  unfold Core.slotWrite; split <;> first | rfl | exact h

/-! ## The gate -/

/-- The owner passes the gate. -/
@[simp] theorem Node.admits_owner (n : Node) (draw : Nat) : n.admits n.id draw = true := by
  simp [Node.admits]

/-- The owner does not pass the gate of the introspection slots. -/
@[simp] theorem Node.admitsIntrospection_owner (n : Node) (draw : Nat) : n.admitsIntrospection n.id draw = false := by
  simp [Node.admitsIntrospection]

/-- A foreign access passes only where the device is claimed by its issuer and halted. -/
theorem Node.admits_foreign {n : Node} {src : Word} {draw : Nat} (h : src ≠ n.id) :
    n.admits src draw = n.admitsInit src draw := by
  simp [Node.admits, h]

/-! ## What a write can do to the device it reaches -/

/-- Everything a control write can do: nothing; the init-device slot; slots 3 to 5 of an admitted issuer; the
introspection slots of a halted processor. -/
theorem Node.ctlWrite_cases (n : Node) (src : Word) (slot : BitVec 4) (v : Word) (draw : Nat) :
    n.ctlWrite src slot v draw = n ∨
    (∃ w, slot = 2 ∧ src ≠ n.id ∧ n.ctlWrite src slot v draw = { n with dev := { n.dev with initDevice := w } }) ∨
    (n.admits src draw = true ∧ n.ctlWrite src slot v draw = { n with dev := n.dev.slotWrite slot v }) ∨
    (∃ c, n.kind = .processor c ∧ n.admitsIntrospection src draw = true ∧
      n.ctlWrite src slot v draw = { n with kind := .processor (c.slotWrite slot v) }) := by
  unfold Node.ctlWrite
  by_cases h2 : slot = 2
  · rw [if_pos h2]
    unfold Node.claimWrite
    by_cases hs : src = n.id
    · exact .inl (by simp [hs])
    · by_cases h0 : n.dev.initDevice = 0#16
      · exact .inr (.inl ⟨src, h2, hs, by simp [hs, h0]⟩)
      · by_cases h4 : src = n.dev.initDevice ∧ n.halted draw = true
        · exact .inr (.inl ⟨v, h2, hs, by
            rw [if_neg (by simp [hs, h0]), if_pos (by simp [hs, h4.2]; exact h4.1)]⟩)
        · exact .inl (by simp [hs, h0, h4])
  · rw [if_neg h2]
    cases hk : n.kind with
    | processor c =>
      dsimp only
      by_cases h6 : 6 ≤ slot.toNat
      · by_cases ha : n.admitsIntrospection src draw = true
        · exact .inr (.inr (.inr ⟨c, rfl, ha, by simp [h6, ha]⟩))
        · exact .inl (by simp [h6, ha])
      · by_cases ha : n.admits src draw = true
        · exact .inr (.inr (.inl ⟨ha, by simp [h6, ha]⟩))
        · exact .inl (by simp [h6, ha])
    | leaf k =>
      dsimp only
      by_cases ha : n.admits src draw = true
      · exact .inr (.inr (.inl ⟨ha, by simp [ha]⟩))
      · exact .inl (by simp [ha])

/-- Everything a block write can do: nothing, or a store by an admitted issuer. -/
theorem Node.blockWrite_cases (n : Node) (src : Word) (w : Byte) (v : Word) (draw : Nat) :
    n.blockWrite src w v draw = n ∨
    (n.admits src draw = true ∧
      n.blockWrite src w v draw = { n with dev := n.dev.store (n.dev.windowAddr w) v }) := by
  unfold Node.blockWrite
  split_ifs with h
  · exact .inr ⟨h, rfl⟩
  · exact .inl rfl

@[simp] theorem Node.ctlWrite_params (n : Node) (src : Word) (slot : BitVec 4) (v : Word) (draw : Nat) :
    (n.ctlWrite src slot v draw).dev.params = n.dev.params := by
  rcases Node.ctlWrite_cases n src slot v draw with h | ⟨w, -, -, h⟩ | ⟨-, h⟩ | ⟨c, -, -, h⟩ <;> simp [h]

@[simp] theorem Node.ctlWrite_mem (n : Node) (src : Word) (slot : BitVec 4) (v : Word) (draw : Nat) :
    (n.ctlWrite src slot v draw).dev.mem = n.dev.mem := by
  rcases Node.ctlWrite_cases n src slot v draw with h | ⟨w, -, -, h⟩ | ⟨-, h⟩ | ⟨c, -, -, h⟩ <;> simp [h]

@[simp] theorem Node.ctlWrite_id (n : Node) (src : Word) (slot : BitVec 4) (v : Word) (draw : Nat) :
    (n.ctlWrite src slot v draw).id = n.id := by
  simp [Node.id]

@[simp] theorem Node.blockWrite_params (n : Node) (src : Word) (w : Byte) (v : Word) (draw : Nat) :
    (n.blockWrite src w v draw).dev.params = n.dev.params := by
  rcases Node.blockWrite_cases n src w v draw with h | ⟨-, h⟩
  · rw [h]
  · rw [h]; simp

@[simp] theorem Node.blockWrite_kind (n : Node) (src : Word) (w : Byte) (v : Word) (draw : Nat) :
    (n.blockWrite src w v draw).kind = n.kind := by
  rcases Node.blockWrite_cases n src w v draw with h | ⟨-, h⟩ <;> rw [h]

@[simp] theorem Node.blockWrite_id (n : Node) (src : Word) (w : Byte) (v : Word) (draw : Nat) :
    (n.blockWrite src w v draw).id = n.id := by
  simp [Node.id]

/-! ## Finding and changing a device -/

theorem findNode_id {id : Word} : ∀ {ns : List Node} {n : Node}, findNode id ns = some n → n.id = id ∧ n ∈ ns
  | [], _, h => by simp [findNode] at h
  | m :: ns, n, h => by
    simp only [findNode] at h
    split_ifs at h with hm
    · cases h; exact ⟨hm, by simp⟩
    · have := findNode_id h; exact ⟨this.1, by simp [this.2]⟩

/-- Where no two devices share an id, a device is found by its own. -/
theorem findNode_of_mem : ∀ {ns : List Node} {n : Node}, (ns.map Node.id).Nodup → n ∈ ns → findNode n.id ns = some n
  | m :: ns, n, h, hn => by
    simp only [List.map_cons, List.nodup_cons, List.mem_map, not_exists, not_and] at h
    simp only [findNode]
    rcases List.mem_cons.1 hn with rfl | hn
    · simp
    · rw [if_neg (fun e => h.1 n hn e.symm), findNode_of_mem h.2 hn]

/-- Where no two devices share an id, rearranging the devices does not change which one an id names. -/
theorem findNode_perm {ns ms : List Node} (p : List.Perm ns ms) (h : (ms.map Node.id).Nodup) (id : Word) :
    findNode id ns = findNode id ms := by
  have hn : (ns.map Node.id).Nodup := (p.map _).nodup_iff.2 h
  cases e : findNode id ms with
  | some n =>
    obtain ⟨rfl, hm⟩ := findNode_id e
    exact findNode_of_mem hn (p.mem_iff.2 hm)
  | none =>
    cases e' : findNode id ns with
    | none => rfl
    | some n =>
      obtain ⟨rfl, hm⟩ := findNode_id e'
      rw [findNode_of_mem h (p.mem_iff.1 hm)] at e
      cases e

/-- A change that keeps ids keeps the ids of the list, in order. -/
theorem map_id_updateNode (id : Word) (f : Node → Node) (hf : ∀ n, (f n).id = n.id) :
    ∀ ns : List Node, (updateNode id f ns).map Node.id = ns.map Node.id
  | [] => rfl
  | n :: ns => by
    simp only [updateNode]
    split_ifs
    · simp [hf]
    · simp [map_id_updateNode id f hf ns]

/-- Each device after the change is a device before it, or the changed one. -/
theorem mem_updateNode {id : Word} {f : Node → Node} : ∀ {ns : List Node} {n : Node},
    n ∈ updateNode id f ns → n ∈ ns ∨ ∃ m ∈ ns, m.id = id ∧ n = f m
  | [], _, h => by simp [updateNode] at h
  | m :: ns, n, h => by
    simp only [updateNode] at h
    split_ifs at h with hm
    · rcases List.mem_cons.1 h with rfl | h
      · exact .inr ⟨m, by simp, hm, rfl⟩
      · exact .inl (by simp [h])
    · rcases List.mem_cons.1 h with rfl | h
      · exact .inl (by simp)
      · rcases mem_updateNode h with h | ⟨k, hk, e⟩
        · exact .inl (by simp [h])
        · exact .inr ⟨k, by simp [hk], e⟩

/-- Looking a device up after a change. -/
theorem findNode_updateNode (id k : Word) (f : Node → Node) (hf : ∀ n, (f n).id = n.id) : ∀ ns : List Node,
    findNode k (updateNode id f ns) = if k = id then (findNode k ns).map f else findNode k ns
  | [] => by simp [updateNode, findNode]
  | n :: ns => by
    simp only [updateNode]
    by_cases hn : n.id = id
    · simp only [hn, if_true, findNode, hf]
      by_cases hk : k = id
      · simp [hk]
      · simp [hk, Ne.symm hk]
    · simp only [hn, if_false, findNode, findNode_updateNode id k f hf ns]
      by_cases hk : k = id
      · subst hk; simp [hn]
      · simp [hk]

/-! ## The banked read -/

/-- A banked read leaves the system as it is, but for a draw. -/
theorem State.busRead_state (s : State) (a : Word) : (s.busRead a).2 = s ∨ (s.busRead a).2 = s.tick := by
  unfold State.busRead
  split
  · exact .inl rfl
  · split
    · exact .inl rfl
    · exact .inr rfl
  · split
    · exact .inl rfl
    · exact .inr rfl

@[simp] theorem State.busRead_dev (s : State) (a : Word) : (s.busRead a).2.dev = s.dev := by
  rcases s.busRead_state a with h | h <;> rw [h]; rfl

@[simp] theorem State.busRead_core (s : State) (a : Word) : (s.busRead a).2.core = s.core := by
  rcases s.busRead_state a with h | h <;> rw [h]; rfl

@[simp] theorem State.busRead_others (s : State) (a : Word) : (s.busRead a).2.others = s.others := by
  rcases s.busRead_state a with h | h <;> rw [h]; rfl

/-- A processor reads its own slots 0 to 5, and 0 from its slots 6 to 15 (43_device_bus.md R185). -/
theorem State.busRead_own {s : State} {a : Word} {slot : BitVec 4} (h : busTarget a = .own slot) :
    s.busRead a = (if 6 ≤ slot.toNat then 0 else s.dev.slotRead slot, s) := by
  have ho : s.selfNode.id = s.dev.params.id := rfl
  simp only [State.busRead, h, ← ho, Node.ctlRead, State.selfNode]
  split_ifs <;> simp_all [State.selfNode, Node.admits, Node.admitsIntrospection]

/-! ## The banked write -/

/-- What the owner of a processor writes to its control slots: 3 to 5 change, nothing else does (43_device_bus.md R173,
R175, R179). -/
theorem Node.ctlWrite_owner (n : Node) (c : Core) (hk : n.kind = .processor c) (slot : BitVec 4) (v : Word)
    (draw : Nat) : n.ctlWrite n.id slot v draw = { n with dev := n.dev.slotWrite slot v } := by
  have same : slot = 2 ∨ 6 ≤ slot.toNat → n.dev.slotWrite slot v = n.dev := by
    rintro (rfl | h)
    · rfl
    · unfold Device.slotWrite; split <;> first | rfl | omega
  unfold Node.ctlWrite
  by_cases h2 : slot = 2
  · rw [if_pos h2, same (.inl h2)]; simp [Node.claimWrite]
  · rw [if_neg h2, hk]
    by_cases h6 : 6 ≤ slot.toNat
    · simp [h6, same (.inr h6), ← hk]
    · simp [h6]

/-- A write to the processor's own slots changes slots 3 to 5 and nothing else (43_device_bus.md R173, R185). -/
theorem State.busWrite_own {s : State} {a : Word} {slot : BitVec 4} (v : Word) (h : busTarget a = .own slot) :
    s.busWrite a v = { s with dev := s.dev.slotWrite slot v } := by
  have e := Node.ctlWrite_owner s.selfNode s.core rfl slot v s.draws
  have ho : s.selfNode.id = s.dev.params.id := rfl
  simp only [State.busWrite, h, ← ho, e]
  rfl

/-- A write to another device: either nothing happens, or the device of the connected id is changed. -/
theorem State.updateAt_cases (s : State) (index : Byte) (f : Node → Node) :
    s.updateAt index f = s ∨
    ∃ id n, s.connectedId index = some id ∧ findNode id s.others = some n ∧
      s.updateAt index f = { s with others := updateNode id f s.others, draws := s.draws + 1 } := by
  unfold State.updateAt
  split
  · exact .inl rfl
  · rename_i id hid
    split
    · exact .inl rfl
    · rename_i n hn
      exact .inr ⟨id, n, hid, hn, rfl⟩

/-- Everything a banked write can do: nothing; the executing processor's own slots 3 to 5; a control or block write to
one connected device. -/
theorem State.busWrite_cases (s : State) (a v : Word) :
    s.busWrite a v = s ∨
    (∃ slot, busTarget a = .own slot ∧ s.busWrite a v = { s with dev := s.dev.slotWrite slot v }) ∨
    (∃ index slot id n, busTarget a = .control index slot ∧ s.connectedId index = some id ∧
      findNode id s.others = some n ∧ s.busWrite a v = { s with
        others := updateNode id (fun n => n.ctlWrite s.dev.params.id slot v s.draws) s.others
        draws := s.draws + 1 }) ∨
    (∃ index w id n, busTarget a = .block index w ∧ s.connectedId index = some id ∧
      findNode id s.others = some n ∧ s.busWrite a v = { s with
        others := updateNode id (fun n => n.blockWrite s.dev.params.id w v s.draws) s.others
        draws := s.draws + 1 }) := by
  rcases h : busTarget a with slot | ⟨index, slot⟩ | ⟨index, w⟩
  · exact .inr (.inl ⟨slot, rfl, State.busWrite_own v h⟩)
  · have e : s.busWrite a v = s.updateAt index (fun n => n.ctlWrite s.dev.params.id slot v s.draws) := by
      simp [State.busWrite, h]
    rcases s.updateAt_cases index (fun n => n.ctlWrite s.dev.params.id slot v s.draws) with h' | ⟨id, n, h1, h2, h3⟩
    · exact .inl (e.trans h')
    · exact .inr (.inr (.inl ⟨index, slot, id, n, rfl, h1, h2, e.trans h3⟩))
  · have e : s.busWrite a v = s.updateAt index (fun n => n.blockWrite s.dev.params.id w v s.draws) := by
      simp [State.busWrite, h]
    rcases s.updateAt_cases index (fun n => n.blockWrite s.dev.params.id w v s.draws) with h' | ⟨id, n, h1, h2, h3⟩
    · exact .inl (e.trans h')
    · exact .inr (.inr (.inr ⟨index, w, id, n, rfl, h1, h2, e.trans h3⟩))

/-- No banked write reaches the executing processor's registers. -/
@[simp] theorem State.busWrite_core (s : State) (a v : Word) : (s.busWrite a v).core = s.core := by
  rcases s.busWrite_cases a v with h | ⟨_, _, h⟩ | ⟨_, _, _, _, _, _, _, h⟩ | ⟨_, _, _, _, _, _, _, h⟩ <;> rw [h]

/-- No banked write reaches the executing processor's own local memory (20_memory.md R40). -/
@[simp] theorem State.busWrite_mem (s : State) (a v : Word) : (s.busWrite a v).dev.mem = s.dev.mem := by
  rcases s.busWrite_cases a v with h | ⟨_, _, h⟩ | ⟨_, _, _, _, _, _, _, h⟩ | ⟨_, _, _, _, _, _, _, h⟩ <;> rw [h]; simp

@[simp] theorem State.busWrite_params (s : State) (a v : Word) : (s.busWrite a v).dev.params = s.dev.params := by
  rcases s.busWrite_cases a v with h | ⟨_, _, h⟩ | ⟨_, _, _, _, _, _, _, h⟩ | ⟨_, _, _, _, _, _, _, h⟩ <;> rw [h]; simp

@[simp] theorem State.busWrite_initDevice (s : State) (a v : Word) :
    (s.busWrite a v).dev.initDevice = s.dev.initDevice := by
  rcases s.busWrite_cases a v with h | ⟨_, _, h⟩ | ⟨_, _, _, _, _, _, _, h⟩ | ⟨_, _, _, _, _, _, _, h⟩ <;> rw [h]; simp

/-- A banked write keeps the ids of the other devices. -/
theorem State.busWrite_ids (s : State) (a v : Word) : (s.busWrite a v).others.map Node.id = s.others.map Node.id := by
  rcases s.busWrite_cases a v with h | ⟨_, _, h⟩ | ⟨_, _, _, _, _, _, _, h⟩ | ⟨_, _, _, _, _, _, _, h⟩ <;> rw [h]
  · exact map_id_updateNode _ _ (fun n => by simp) _
  · exact map_id_updateNode _ _ (fun n => by simp) _

end Sys2Proof.Machine
end

