-- ==== Sys2Proof/Laws/Codes.lean ====
section
/-! SUPPORT. The laws of the codes and of the two instruction words (30_encoding.md R71 to R79): each code table inverts
its encoder, and each field of an encoded word reads back. -/

namespace Sys2Proof

@[simp] theorem Source.ofCode_code (s : Source) : Source.ofCode s.code = s := by
  rcases s with _ | r | _ | r | _ | _ <;> first | rfl | (cases r <;> rfl)

@[simp] theorem Source.code_ofCode : ∀ c : BitVec 4, (Source.ofCode c).code = c := by decide

@[simp] theorem Dest.ofCode_code (d : Dest) : Dest.ofCode d.code = d := by
  rcases d with _ | r | _ | r | _ | _ <;> first | rfl | (cases r <;> rfl)

@[simp] theorem Dest.code_ofCode : ∀ c : BitVec 4, (Dest.ofCode c).code = c := by decide

@[simp] theorem Effect.ofCode_code (e : Effect) : Effect.ofCode e.code = e := by cases e <;> rfl

@[simp] theorem Effect.code_ofCode : ∀ c : BitVec 3, (Effect.ofCode c).code = c := by decide

/-- Memory-class in bits (30_encoding.md R74): `c[2] = 0` and `c[1:0]` not 0, for both operands. -/
theorem Source.isMem_ofCode : ∀ c : BitVec 4,
    (Source.ofCode c).isMem = (!c.getLsbD 2 && (c.extractLsb' 0 2 != 0)) := by decide

theorem Dest.isMem_ofCode : ∀ c : BitVec 4,
    (Dest.ofCode c).isMem = (!c.getLsbD 2 && (c.extractLsb' 0 2 != 0)) := by decide

/-- Every ALU code names an instruction of that code (30_encoding.md R77). -/
@[simp] theorem Instr.aluCode_ofAluCode (c : BitVec 4) (f : Fields) : (Instr.ofAluCode c f).aluCode = c := by
  revert c
  have h : ∀ c : BitVec 4, ∀ f : Fields, (Instr.ofAluCode c f).aluCode = c := by
    intro c f
    obtain ⟨⟨n, hn⟩⟩ := c
    have : n < 16 := hn
    interval_cases n <;> rfl
  exact fun c => h c f

@[simp] theorem Instr.fields_ofAluCode (c : BitVec 4) (f : Fields) : (Instr.ofAluCode c f).fields = f := by
  obtain ⟨⟨n, hn⟩⟩ := c
  have : n < 16 := hn
  interval_cases n <;> rfl

@[simp] theorem Instr.ofAluCode_aluCode (i : Instr) : Instr.ofAluCode i.aluCode i.fields = i := by
  cases i <;> rfl

/-! ## The fields of word 1 -/

theorem encodeWord1_aluCode (i : Instr) : (encodeWord1 i).extractLsb' 0 4 = i.aluCode := by
  ext k hk
  simp only [encodeWord1, BitVec.getElem_extractLsb', Nat.zero_add, BitVec.getLsbD_append]
  simp [hk]

theorem encodeWord1_source (i : Instr) : (encodeWord1 i).extractLsb' 12 4 = i.fields.source.code := by
  ext k hk
  simp only [encodeWord1, BitVec.getElem_extractLsb', BitVec.getLsbD_append]
  rw [if_neg (by omega), if_neg (by omega), if_neg (by omega), if_neg (by omega)]
  rw [← BitVec.getLsbD_eq_getElem]
  congr 1; omega

theorem encodeWord1_dest (i : Instr) : (encodeWord1 i).extractLsb' 8 4 = i.fields.dest.code := by
  ext k hk
  simp only [encodeWord1, BitVec.getElem_extractLsb', BitVec.getLsbD_append]
  rw [if_neg (by omega), if_neg (by omega), if_neg (by omega), if_pos (by omega)]
  rw [← BitVec.getLsbD_eq_getElem]
  congr 1; omega

theorem encodeWord1_increment (i : Instr) : (encodeWord1 i).getLsbD 7 = i.fields.increment := by
  rw [encodeWord1, BitVec.getLsbD_append, if_neg (by omega), BitVec.getLsbD_append, if_neg (by omega),
    BitVec.getLsbD_append, if_pos (by omega)]
  cases i.fields.increment <;> rfl

theorem encodeWord1_effect (i : Instr) : (encodeWord1 i).extractLsb' 4 3 = i.fields.effect.code := by
  ext k hk
  simp only [encodeWord1, BitVec.getElem_extractLsb', BitVec.getLsbD_append]
  rw [if_neg (by omega), if_pos (by omega)]
  rw [← BitVec.getLsbD_eq_getElem]
  congr 1; omega

/-! ## The two forms of word 2 -/

theorem append_offset (o : BitVec 4) (v : BitVec 12) : (o ++ v : Word).extractLsb' 12 4 = o := by
  ext k hk
  simp only [BitVec.getElem_extractLsb', BitVec.getLsbD_append]
  rw [if_neg (by omega), ← BitVec.getLsbD_eq_getElem]
  congr 1; omega

theorem append_imm12 (o : BitVec 4) (v : BitVec 12) : (o ++ v : Word).extractLsb' 0 12 = v := by
  ext k hk
  simp only [BitVec.getElem_extractLsb', BitVec.getLsbD_append, Nat.zero_add]
  rw [if_pos (by omega), ← BitVec.getLsbD_eq_getElem]

theorem append_extract (w : Word) : (w.extractLsb' 12 4 ++ w.extractLsb' 0 12 : Word) = w := by
  ext k hk
  simp only [BitVec.getElem_append, BitVec.getElem_extractLsb']
  split_ifs with h
  · rw [← BitVec.getLsbD_eq_getElem]; congr 1; omega
  · rw [← BitVec.getLsbD_eq_getElem]; congr 1; omega

/-- A 12-bit field extended to a word keeps its 12 bits, whichever the extension (30_encoding.md R75). -/
theorem extract_setWidth (v : BitVec 12) : (v.setWidth 16).extractLsb' 0 12 = v := by
  ext k hk
  rw [BitVec.getElem_extractLsb', BitVec.getLsbD_setWidth, Nat.zero_add, BitVec.getLsbD_eq_getElem hk]
  simp [show k < 16 by omega]

theorem extract_signExtend (v : BitVec 12) : (v.signExtend 16).extractLsb' 0 12 = v := by
  ext k hk
  rw [BitVec.getElem_extractLsb', BitVec.getLsbD_signExtend, Nat.zero_add, if_pos hk, BitVec.getLsbD_eq_getElem hk]
  simp [show k < 16 by omega]

/-- The immediate that word 2 carries is in the range of its form (30_encoding.md R75). -/
theorem decodeImm_fits (source : Source) (dest : Dest) (w : Word) (h : dest.isMem = true) :
    (decodeImm source dest w).extractLsb' 0 12 = w.extractLsb' 0 12 := by
  unfold decodeImm
  split_ifs
  · exact extract_setWidth _
  · exact extract_signExtend _

end Sys2Proof
end

