-- ==== Sys2Proof/Laws/Flags.lean ====
section
/-! SUPPORT. The laws of the flag computations (42_alu.md R141 to R143), bit by bit. -/

namespace Sys2Proof.Machine

open Sys2Proof

/-- `putBit` writes its one bit and no other. -/
theorem putBit_getLsbD (x : Word) {i : Nat} (hi : i < 16) (b : Bool) (j : Nat) :
    (putBit x i b).getLsbD j = if j = i then b else x.getLsbD j := by
  unfold putBit
  by_cases hj : j < 16
  · cases b <;> by_cases e : j = i <;> simp [hj, hi, e]
  · have e : j ≠ i := by omega
    simp [BitVec.getLsbD_of_ge _ _ (Nat.le_of_not_lt hj), e]

/-- The common flag rule, bit by bit (R141). -/
theorem commonFlags_getLsbD (F r O' : Word) (j : Nat) :
    (commonFlags F r O').getLsbD j =
      if j = 0 then r == 0 else if j = 1 then r.getLsbD 15 else if j = 2 then O'.getLsbD 0 else F.getLsbD j := by
  simp only [commonFlags, putBit_getLsbD, Config.bitC, Config.bitN, Config.bitZ, show (2:Nat) < 16 by omega,
    show (1:Nat) < 16 by omega, show (0:Nat) < 16 by omega]
  by_cases h0 : j = 0
  · simp [h0]
  · by_cases h1 : j = 1
    · simp [h1]
    · simp [h0, h1]

@[simp] theorem plainOut_result (r F O : Word) : (plainOut r F O).result = r := rfl
@[simp] theorem plainOut_flags (r F O : Word) : (plainOut r F O).flags = commonFlags F r O := rfl
@[simp] theorem plainOut_oflow (r F O : Word) : (plainOut r F O).oflow = O := rfl
@[simp] theorem wideOut_result (r O' F : Word) : (wideOut r O' F).result = r := rfl
@[simp] theorem wideOut_flags (r O' F : Word) : (wideOut r O' F).flags = commonFlags F r O' := rfl
@[simp] theorem wideOut_oflow (r O' F : Word) : (wideOut r O' F).oflow = O' := rfl
@[simp] theorem wideOutV_result (r O' F : Word) (v : Bool) : (wideOutV r O' F v).result = r := rfl
@[simp] theorem wideOutV_flags (r O' F : Word) (v : Bool) :
    (wideOutV r O' F v).flags = putBit (commonFlags F r O') Config.bitV v := rfl
@[simp] theorem wideOutV_oflow (r O' F : Word) (v : Bool) : (wideOutV r O' F v).oflow = O' := rfl

@[simp] theorem stores_never (F : Word) (irq : Bool) : Effect.stores .never F irq = false := rfl
@[simp] theorem stores_always (F : Word) (irq : Bool) : Effect.stores .always F irq = true := rfl

end Sys2Proof.Machine
end

