-- ==== Sys2Proof/Laws/Operands.lean ====
section
/-! SUPPORT. The laws of operand reads and destination writes: a read changes nothing but a draw, and what a destination
write leaves alone (40_operands.md R90 to R114). -/

namespace Sys2Proof

theorem Dest.isMem_eq_true {d : Dest} : d.isMem = true ↔ ∃ r, d = .mem r := by
  cases d <;> simp [Dest.isMem]

theorem Source.isMem_eq_true {s : Source} : s.isMem = true ↔ ∃ r, s = .mem r := by
  cases s <;> simp [Source.isMem]

/-- Of push, pop and the reserved combination at most one holds, and together they are the increment bit
(40_operands.md R99, R100, 30_encoding.md R81). -/
theorem Fields.increment_cases (f : Fields) :
    (f.increment = false ∧ f.push = false ∧ f.pop = false ∧ f.reserved = false) ∨
    (f.increment = true ∧ f.push = true ∧ f.pop = false ∧ f.reserved = false) ∨
    (f.increment = true ∧ f.push = false ∧ f.pop = true ∧ f.reserved = false) ∨
    (f.increment = true ∧ f.push = false ∧ f.pop = false ∧ f.reserved = true) := by
  unfold Fields.push Fields.pop Fields.reserved
  cases f.increment <;> cases f.dest.isMem <;> cases f.source.isMem <;> simp

end Sys2Proof

namespace Sys2Proof.Machine

open Sys2Proof

/-! ## Reads -/

/-- A pointer read leaves the system as it is, but for a draw. -/
theorem State.pointerRead_state (s : State) (r : Reg) (a : Word) :
    (s.pointerRead r a).2 = s ∨ (s.pointerRead r a).2 = s.tick := by
  unfold State.pointerRead
  split_ifs
  · exact .inl rfl
  · exact s.busRead_state a

/-- A source read leaves the system as it is, but for a draw. -/
theorem State.srcRead_state (s : State) (f : Fields) : (s.srcRead f).2 = s ∨ (s.srcRead f).2 = s.tick := by
  unfold State.srcRead
  split <;> first | exact .inl rfl | exact s.pointerRead_state _ _

/-- A destination read leaves the system as it is, but for a draw. -/
theorem State.dstRead_state (s : State) (f : Fields) : (s.dstRead f).2 = s ∨ (s.dstRead f).2 = s.tick := by
  unfold State.dstRead
  split <;> first | exact .inl rfl | exact s.pointerRead_state _ _

@[simp] theorem State.srcRead_dev (s : State) (f : Fields) : (s.srcRead f).2.dev = s.dev := by
  rcases s.srcRead_state f with h | h <;> simp [h]

@[simp] theorem State.srcRead_core (s : State) (f : Fields) : (s.srcRead f).2.core = s.core := by
  rcases s.srcRead_state f with h | h <;> simp [h]

@[simp] theorem State.srcRead_others (s : State) (f : Fields) : (s.srcRead f).2.others = s.others := by
  rcases s.srcRead_state f with h | h <;> simp [h]

@[simp] theorem State.dstRead_dev (s : State) (f : Fields) : (s.dstRead f).2.dev = s.dev := by
  rcases s.dstRead_state f with h | h <;> simp [h]

@[simp] theorem State.dstRead_core (s : State) (f : Fields) : (s.dstRead f).2.core = s.core := by
  rcases s.dstRead_state f with h | h <;> simp [h]

@[simp] theorem State.dstRead_others (s : State) (f : Fields) : (s.dstRead f).2.others = s.others := by
  rcases s.dstRead_state f with h | h <;> simp [h]

/-- The destination address depends on the registers alone. -/
theorem State.dstAddr_congr {s t : State} (h : ∀ q, s.core.reg q = t.core.reg q) (f : Fields) (r : Reg) :
    s.dstAddr f r = t.dstAddr f r := by
  simp [State.dstAddr, h]

/-! ## Writes through a pointer -/

@[simp] theorem State.pointerWrite_core (s : State) (r : Reg) (a v : Word) :
    (s.pointerWrite r a v).core = s.core := by
  unfold State.pointerWrite; split_ifs <;> simp

@[simp] theorem State.pointerWrite_params (s : State) (r : Reg) (a v : Word) :
    (s.pointerWrite r a v).dev.params = s.dev.params := by
  unfold State.pointerWrite; split_ifs <;> simp [State.storeLocal]

@[simp] theorem State.pointerWrite_initDevice (s : State) (r : Reg) (a v : Word) :
    (s.pointerWrite r a v).dev.initDevice = s.dev.initDevice := by
  unfold State.pointerWrite; split_ifs <;> simp [State.storeLocal]

/-- A write through R1 to R3 is a local store. -/
theorem State.pointerWrite_local {s : State} {r : Reg} (h : r.isLocal = true) (a v : Word) :
    s.pointerWrite r a v = s.storeLocal a v := by
  simp [State.pointerWrite, h]

/-- A write through R4 to R6 is a banked write. -/
theorem State.pointerWrite_bus {s : State} {r : Reg} (h : r.isLocal = false) (a v : Word) :
    s.pointerWrite r a v = s.busWrite a v := by
  simp [State.pointerWrite, h]

/-! ## Destination writes -/

/-- What a destination write never touches: pc, the overflow register, the run state, the parameters and the
init-device slot of the executing processor. -/
theorem State.dstWrite_keeps (s : State) (f : Fields) (v : Word) :
    (s.dstWrite f v).core.pc = s.core.pc ∧ (s.dstWrite f v).core.oflow = s.core.oflow ∧
    (s.dstWrite f v).core.run = s.core.run ∧ (s.dstWrite f v).dev.params = s.dev.params ∧
    (s.dstWrite f v).dev.initDevice = s.dev.initDevice := by
  unfold State.dstWrite
  split <;> first | (dsimp only; split_ifs <;> simp) | simp

@[simp] theorem State.dstWrite_pc (s : State) (f : Fields) (v : Word) :
    (s.dstWrite f v).core.pc = s.core.pc := (s.dstWrite_keeps f v).1

@[simp] theorem State.dstWrite_oflow (s : State) (f : Fields) (v : Word) :
    (s.dstWrite f v).core.oflow = s.core.oflow := (s.dstWrite_keeps f v).2.1

@[simp] theorem State.dstWrite_run (s : State) (f : Fields) (v : Word) :
    (s.dstWrite f v).core.run = s.core.run := (s.dstWrite_keeps f v).2.2.1

@[simp] theorem State.dstWrite_params (s : State) (f : Fields) (v : Word) :
    (s.dstWrite f v).dev.params = s.dev.params := (s.dstWrite_keeps f v).2.2.2.1

@[simp] theorem State.dstWrite_initDevice (s : State) (f : Fields) (v : Word) :
    (s.dstWrite f v).dev.initDevice = s.dev.initDevice := (s.dstWrite_keeps f v).2.2.2.2

/-- The general registers after a destination write. -/
theorem State.dstWrite_reg (s : State) (f : Fields) (v : Word) (q : Reg) :
    (s.dstWrite f v).core.reg q =
      if f.dest = .reg q then v
      else if f.dest = .mem q ∧ f.push = true then s.core.reg q - 1
      else s.core.reg q := by
  unfold State.dstWrite
  cases hd : f.dest with
  | pc => simp
  | flags4 => simp
  | flags => simp
  | ih => simp
  | reg r =>
    by_cases h : q = r
    · subst h; simp [State.setReg]
    · simp [State.setReg_core_reg, h, Ne.symm h]
  | mem r =>
    dsimp only
    by_cases hp : f.push = true
    · by_cases h : q = r
      · subst h; simp [hp, State.setReg]
      · simp [hp, State.setReg_core_reg, h, Ne.symm h]
    · simp [hp]

/-- `next` after a destination write (40_operands.md R107). -/
theorem State.dstWrite_next (s : State) (f : Fields) (v : Word) :
    (s.dstWrite f v).core.next = if f.dest = .pc then v else s.core.next := by
  unfold State.dstWrite
  cases hd : f.dest <;> simp
  split_ifs <;> simp

/-- Flags after a destination write (40_operands.md R109). -/
theorem State.dstWrite_flags (s : State) (f : Fields) (v : Word) :
    (s.dstWrite f v).core.flags = if f.dest = .flags ∨ f.dest = .flags4 then v else s.core.flags := by
  unfold State.dstWrite
  cases hd : f.dest <;> simp
  split_ifs <;> simp

/-- Where the destination is no memory operand, nothing of the system changes but the registers and, for code 12, the
interrupt-handler register. -/
theorem State.dstWrite_of_not_mem (s : State) (f : Fields) (v : Word) (h : f.dest.isMem = false) :
    (s.dstWrite f v).others = s.others ∧ (s.dstWrite f v).draws = s.draws ∧
    (s.dstWrite f v).dev = if f.dest = .ih then { s.dev with handler := v } else s.dev := by
  unfold State.dstWrite
  cases hd : f.dest <;> simp_all [Dest.isMem, State.setHandler]

/-- Where it is one, the system apart from the registers is that after the write through the pointer. -/
theorem State.dstWrite_mem (s : State) (f : Fields) (v : Word) (r : Reg) (h : f.dest = .mem r) :
    (s.dstWrite f v).dev = (s.pointerWrite r (s.dstAddr f r) v).dev ∧
    (s.dstWrite f v).others = (s.pointerWrite r (s.dstAddr f r) v).others ∧
    (s.dstWrite f v).draws = (s.pointerWrite r (s.dstAddr f r) v).draws := by
  unfold State.dstWrite
  rw [h]
  dsimp only
  split_ifs <;> simp

/-! ## The pop adjustment -/

/-- The pop adjustment touches one general register at most. -/
theorem State.popAdjust_keeps (s : State) (f : Fields) :
    (s.popAdjust f).dev = s.dev ∧ (s.popAdjust f).others = s.others ∧ (s.popAdjust f).draws = s.draws ∧
    (s.popAdjust f).core.pc = s.core.pc ∧ (s.popAdjust f).core.next = s.core.next ∧
    (s.popAdjust f).core.flags = s.core.flags ∧ (s.popAdjust f).core.oflow = s.core.oflow ∧
    (s.popAdjust f).core.run = s.core.run := by
  unfold State.popAdjust
  split <;> first | (split_ifs <;> simp) | simp

@[simp] theorem State.popAdjust_dev (s : State) (f : Fields) : (s.popAdjust f).dev = s.dev := (s.popAdjust_keeps f).1
@[simp] theorem State.popAdjust_others (s : State) (f : Fields) : (s.popAdjust f).others = s.others :=
  (s.popAdjust_keeps f).2.1
@[simp] theorem State.popAdjust_draws (s : State) (f : Fields) : (s.popAdjust f).draws = s.draws :=
  (s.popAdjust_keeps f).2.2.1
@[simp] theorem State.popAdjust_pc (s : State) (f : Fields) : (s.popAdjust f).core.pc = s.core.pc :=
  (s.popAdjust_keeps f).2.2.2.1
@[simp] theorem State.popAdjust_next (s : State) (f : Fields) : (s.popAdjust f).core.next = s.core.next :=
  (s.popAdjust_keeps f).2.2.2.2.1
@[simp] theorem State.popAdjust_flags (s : State) (f : Fields) : (s.popAdjust f).core.flags = s.core.flags :=
  (s.popAdjust_keeps f).2.2.2.2.2.1
@[simp] theorem State.popAdjust_oflow (s : State) (f : Fields) : (s.popAdjust f).core.oflow = s.core.oflow :=
  (s.popAdjust_keeps f).2.2.2.2.2.2.1
@[simp] theorem State.popAdjust_run (s : State) (f : Fields) : (s.popAdjust f).core.run = s.core.run :=
  (s.popAdjust_keeps f).2.2.2.2.2.2.2

/-- The general registers after the pop adjustment (41_execute.md R134). -/
theorem State.popAdjust_reg (s : State) (f : Fields) (q : Reg) :
    (s.popAdjust f).core.reg q = if f.source = .mem q ∧ f.pop = true then s.core.reg q + 1 else s.core.reg q := by
  unfold State.popAdjust
  cases hs : f.source with
  | mem r =>
    by_cases hp : f.pop = true
    · by_cases h : q = r
      · subst h; simp [hp, State.setReg]
      · simp [hp, State.setReg_core_reg, h, Ne.symm h]
    · simp [hp]
  | pc => simp
  | imm => simp
  | reg r => simp
  | flags => simp
  | ih => simp

end Sys2Proof.Machine
end

