-- ==== Sys2Proof/Laws/Execute.lean ====
section
/-! SUPPORT. What one instruction can do, said once: the operand reads change nothing but draws, `finish` either stores
and retires or only retires, and `exec` is `finish` on the ALU's answer (41_execute.md R126 to R139). -/

namespace Sys2Proof.Machine

open Sys2Proof

/-! ## After the reads -/

@[simp] theorem State.afterReads_dev (s : State) (f : Fields) : (s.afterReads f).dev = s.dev := by
  simp [State.afterReads, State.readOperands]

@[simp] theorem State.afterReads_core (s : State) (f : Fields) : (s.afterReads f).core = s.core := by
  simp [State.afterReads, State.readOperands]

@[simp] theorem State.afterReads_others (s : State) (f : Fields) : (s.afterReads f).others = s.others := by
  simp [State.afterReads, State.readOperands]

/-! ## The two ways an instruction finishes -/

/-- Discard: flags and overflow register latched, retired, nothing else (41_execute.md R137). -/
theorem State.finish_discard (s : State) (f : Fields) (out : AluOut)
    (h : (s.latch out.flags out.oflow).stores f = false) :
    s.finish f out = (s.latch out.flags out.oflow).retire := by
  simp [State.finish, h]

/-- Commit: latched, stored, popped, retired, and halted on a self-jump (41_execute.md R130 to R132). -/
theorem State.finish_commit (s : State) (f : Fields) (out : AluOut)
    (h : (s.latch out.flags out.oflow).stores f = true) :
    s.finish f out =
      let u := (((s.latch out.flags out.oflow).dstWrite f out.result).popAdjust f).retire
      if s.isSelfJump f out.result then u.halt else u := by
  simp [State.finish, h, State.isSelfJump]

/-! ## exec -/

/-- The ALU operation of an instruction. -/
def aluOf : Instr → AluOp
  | .copy _ => aluCopy
  | .and _ => aluAnd
  | .or _ => aluOr
  | .xor _ => aluXor
  | .inv _ => aluInv
  | .shl _ => aluShl
  | .shr _ => aluShr
  | .swap _ => aluSwap
  | .msb _ => aluMsb
  | .lsb _ => aluLsb
  | .add _ => aluAdd
  | .sub _ => aluSub
  | .mul _ => aluMul
  | .div _ => aluDiv
  | .page _ => aluPage
  | .oand _ => aluOand

/-- Every arm of `exec` is the shared execute on its instruction's ALU operation. -/
theorem exec_eq_execute (i : Instr) (s : State) : exec i s = execute (aluOf i) i.fields s := by
  cases i <;> rfl

/-- The ALU's answer for an instruction at a state. -/
def State.aluOut (s : State) (i : Instr) : AluOut :=
  aluOf i (s.srcValue i.fields) (s.dstValue i.fields) s.core.flags s.core.oflow

/-- Everything `exec` can answer: the refusal of the reserved combination, or the finished instruction. -/
theorem exec_eq (i : Instr) (s : State) :
    exec i s = if i.fields.reserved then .refused .reservedIncrement
      else .next ((s.afterReads i.fields).finish i.fields (s.aluOut i)) := by
  rw [exec_eq_execute, execute]
  simp [State.aluOut]

/-- If `exec` answers a next state, it is the finished instruction. -/
theorem exec_next {i : Instr} {s t : State} (h : exec i s = .next t) :
    i.fields.reserved = false ∧ t = (s.afterReads i.fields).finish i.fields (s.aluOut i) := by
  rw [exec_eq] at h
  split_ifs at h with hr
  exact ⟨by simpa using hr, by cases h; rfl⟩

/-- `finish` retires: the new `next` is the new pc plus 2 (41_execute.md R132). -/
theorem State.finish_next (s : State) (f : Fields) (out : AluOut) :
    (s.finish f out).core.next = (s.finish f out).core.pc + 2 := by
  simp only [State.finish]
  split_ifs <;> simp

/-- The parameters and the init-device slot of the executing processor outlast an instruction. -/
theorem State.finish_params (s : State) (f : Fields) (out : AluOut) :
    (s.finish f out).dev.params = s.dev.params ∧ (s.finish f out).dev.initDevice = s.dev.initDevice := by
  simp only [State.finish]
  split_ifs <;> simp

/-- The general registers after an instruction. -/
theorem State.finish_reg (s : State) (f : Fields) (out : AluOut) (q : Reg) :
    (s.finish f out).core.reg q =
      if (s.latch out.flags out.oflow).stores f then
        (((s.latch out.flags out.oflow).dstWrite f out.result).popAdjust f).core.reg q
      else s.core.reg q := by
  simp only [State.finish]
  split_ifs <;> simp

end Sys2Proof.Machine
end

