-- ==== Sys2Proof/Laws/PerInstr.lean ====
section
/-! SUPPORT. Statements made for every instruction, one lemma per constructor of `Instr`. -/

namespace Sys2Proof.Laws

open Sys2Proof

/-- Bits 3:0 of the encoded word 1 select the instruction's row of the opcode table, and its fields do not depend on the
row (30_encoding.md R77: a decoder selects the row by `word1[3:0]` alone). -/
def OpcodeField.Statement (i : Instr) : Prop :=
  (encodeWord1 i).extractLsb' 0 4 = i.aluCode ∧ Instr.ofAluCode ((encodeWord1 i).extractLsb' 0 4) i.fields = i

theorem OpcodeField.all (i : Instr) : OpcodeField.Statement i :=
  ⟨encodeWord1_aluCode i, by rw [encodeWord1_aluCode, Instr.ofAluCode_aluCode]⟩

theorem OpcodeField.copy (f : Fields) : OpcodeField.Statement (.copy f) := OpcodeField.all _
theorem OpcodeField.and (f : Fields) : OpcodeField.Statement (.and f) := OpcodeField.all _
theorem OpcodeField.or (f : Fields) : OpcodeField.Statement (.or f) := OpcodeField.all _
theorem OpcodeField.xor (f : Fields) : OpcodeField.Statement (.xor f) := OpcodeField.all _
theorem OpcodeField.inv (f : Fields) : OpcodeField.Statement (.inv f) := OpcodeField.all _
theorem OpcodeField.shl (f : Fields) : OpcodeField.Statement (.shl f) := OpcodeField.all _
theorem OpcodeField.shr (f : Fields) : OpcodeField.Statement (.shr f) := OpcodeField.all _
theorem OpcodeField.swap (f : Fields) : OpcodeField.Statement (.swap f) := OpcodeField.all _
theorem OpcodeField.msb (f : Fields) : OpcodeField.Statement (.msb f) := OpcodeField.all _
theorem OpcodeField.lsb (f : Fields) : OpcodeField.Statement (.lsb f) := OpcodeField.all _
theorem OpcodeField.add (f : Fields) : OpcodeField.Statement (.add f) := OpcodeField.all _
theorem OpcodeField.sub (f : Fields) : OpcodeField.Statement (.sub f) := OpcodeField.all _
theorem OpcodeField.mul (f : Fields) : OpcodeField.Statement (.mul f) := OpcodeField.all _
theorem OpcodeField.div (f : Fields) : OpcodeField.Statement (.div f) := OpcodeField.all _
theorem OpcodeField.page (f : Fields) : OpcodeField.Statement (.page f) := OpcodeField.all _
theorem OpcodeField.oand (f : Fields) : OpcodeField.Statement (.oand f) := OpcodeField.all _

end Sys2Proof.Laws
end

