-- ==== Sys2Proof/Laws/Safety.lean ====
section
/-! SUPPORT. The terms of Safety.lean in the model's own operations. -/

namespace Sys2Proof.Machine

open Sys2Proof

/-- A connected device is the one that bus accesses find: by the id that the map gives (10_state.md R30). -/
theorem State.Connects.found {s : State} {index : Byte} {n : Node} (h : s.Connects index n) :
    s.connectedId index = some n.id ∧ findNode n.id s.others = some n ∧ s.deviceAt index = some n := by
  obtain ⟨h0, id, hl, hf⟩ := h
  obtain rfl := (findNode_id hf).1
  have hc : s.connectedId index = some n.id := by
    unfold State.connectedId
    rw [if_neg h0, hl]
  exact ⟨hc, hf, by simp [State.deviceAt, hc, hf]⟩

end Sys2Proof.Machine
end

