-- ==== Sys2Proof/Laws/Schedule.lean ====
section
/-! SUPPORT. Giving the turn on only rearranges the devices (20_memory.md R59). -/

namespace Sys2Proof.Machine

open Sys2Proof

/-- What `swapIn` answers: a running processor of the list, and the list with `me` in its place. -/
theorem swapIn_perm {p : Node → Bool} {me : Node} : ∀ {ns : List Node} {t : Device × Core × List Node},
    swapIn p me ns = some t →
    List.Perm ({ dev := t.1, kind := .processor t.2.1 } :: t.2.2) (me :: ns) ∧ t.2.1.run.isHalted = false
  | [], _, h => by simp [swapIn] at h
  | n :: ns, t, h => by
    obtain ⟨nd, k⟩ := n
    have tail : ∀ u : Device × Core × List Node, swapIn p me ns = some u →
        t = (u.1, u.2.1, ⟨nd, k⟩ :: u.2.2) →
        List.Perm ({ dev := t.1, kind := .processor t.2.1 } :: t.2.2) (me :: ⟨nd, k⟩ :: ns) ∧
          t.2.1.run.isHalted = false := by
      rintro u hu rfl
      obtain ⟨hp, hr⟩ := swapIn_perm hu
      exact ⟨(List.Perm.swap _ _ _).trans ((hp.cons _).trans (List.Perm.swap _ _ _)), hr⟩
    cases k with
    | leaf k =>
      simp only [swapIn, Option.map_eq_some_iff] at h
      obtain ⟨u, hu, e⟩ := h
      exact tail u hu e.symm
    | processor c =>
      simp only [swapIn] at h
      split_ifs at h with hc
      · cases h
        refine ⟨List.Perm.swap _ _ _, ?_⟩
        simp [Node.isRunning] at hc
        exact hc.1
      · simp only [Option.map_eq_some_iff] at h
        obtain ⟨u, hu, e⟩ := h
        exact tail u hu e.symm

/-- Giving the turn to another processor rearranges the devices and gives it to one that runs. -/
theorem State.giveTurn_perm {s t : State} {p : Node → Bool} (h : s.giveTurn p = some t) :
    List.Perm (t.selfNode :: t.others) (s.selfNode :: s.others) ∧ t.core.run.isHalted = false ∧
      t.draws = s.draws := by
  unfold State.giveTurn at h
  split at h
  · cases h
  · rename_i u hu
    cases h
    obtain ⟨h1, h2⟩ := swapIn_perm hu
    exact ⟨h1, h2, rfl⟩

/-- Handing the turn on rearranges the devices and changes none of them. -/
theorem State.handOver_perm (s : State) :
    List.Perm (s.handOver.selfNode :: s.handOver.others) (s.selfNode :: s.others) := by
  unfold State.handOver
  split
  · exact (State.giveTurn_perm ‹_›).1
  · split
    · exact List.Perm.refl _
    · cases h : s.giveTurn (fun _ => true) with
      | none => simp
      | some t => simpa using (State.giveTurn_perm h).1

@[simp] theorem State.handOver_draws (s : State) : s.handOver.draws = s.draws := by
  unfold State.handOver
  split
  · exact (State.giveTurn_perm ‹_›).2.2
  · split
    · rfl
    · cases h : s.giveTurn (fun _ => true) with
      | none => simp
      | some t => simpa using (State.giveTurn_perm h).2.2

/-- A processor alone on the system keeps the turn. -/
theorem State.handOver_alone {s : State} (h : s.others = []) : s.handOver = s := by
  have hn : ∀ p, s.giveTurn p = none := fun p => by simp [State.giveTurn, h, swapIn]
  unfold State.handOver
  rw [hn]
  dsimp only
  split
  · rfl
  · simp [hn]

end Sys2Proof.Machine
end

