-- ==== Sys2Proof/Tests/Slice0.lean ====
section
/-! SUPPORT. The model's own tests. Expected values come from 95_test_vectors.md, whose row each test names, or from the
rule that it cites. Last, one witness for each statement with hypotheses, named `test_meets_<statement>`. -/

namespace Sys2Proof.Tests

open Sys2Proof Sys2Proof.Machine

/-! ## Well-formedness: each check refuses an ill-formed term -/

/-- R76: no offset field at a register destination. -/
theorem test_offset_without_field_is_ill_formed :
    ¬(Instr.copy ⟨.imm, .reg .r1, false, .always, 0, 1⟩).WellFormed := by decide

/-- R75: between two memory operands the immediate ends at 4095. -/
theorem test_wide_immediate_between_memory_operands_is_ill_formed :
    ¬(Instr.add ⟨.mem .r1, .mem .r2, false, .always, 0x1000, 0⟩).WellFormed := by decide

/-- R75: into memory from a register the immediate is the sign extension of 12 bits. -/
theorem test_immediate_past_2047_into_memory_is_ill_formed :
    ¬(Instr.add ⟨.reg .r1, .mem .r2, false, .always, 0x0800, 0⟩).WellFormed := by decide

/-- R75, R76: the ends of the ranges are well formed. -/
theorem test_range_ends_are_well_formed :
    (Instr.add ⟨.mem .r1, .mem .r2, false, .always, 0x0FFF, 0xF⟩).WellFormed ∧
    (Instr.add ⟨.reg .r1, .mem .r2, false, .always, 0xF800, 0x8⟩).WellFormed ∧
    (Instr.add ⟨.reg .r1, .pc, false, .always, 0xFFFF, 0⟩).WellFormed := by decide

/-! ## Decoding: one written-out word for every constructor (word 1 of 30_encoding.md R71 as
source, destination, increment and effect, ALU code) -/

/-- Row E5: source 0, destination 6. -/
theorem test_decode_copy : decode 0x0640 0xFFFC = .copy ⟨.pc, .reg .r2, false, .always, 0xFFFC, 0⟩ := by decide
/-- Source 5, destination 6, effect 0, ALU code 1. -/
theorem test_decode_and : decode 0x5601 0x0000 = .and ⟨.reg .r1, .reg .r2, false, .onZero, 0, 0⟩ := by decide
/-- Source 7, destination 13, effect 1, ALU code 2. -/
theorem test_decode_or : decode 0x7D12 0x8001 = .or ⟨.reg .r3, .reg .r4, false, .onNotZero, 0x8001, 0⟩ := by decide
/-- Source 2, destination 14, effect 2, ALU code 3. -/
theorem test_decode_xor : decode 0x2E23 0x0004 = .xor ⟨.mem .r2, .reg .r5, false, .onNegative, 4, 0⟩ := by decide
/-- Source 3 with pop, destination 15, effect 3, ALU code 4. -/
theorem test_decode_inv : decode 0x3FB4 0x0000 = .inv ⟨.mem .r3, .reg .r6, true, .never, 0, 0⟩ := by decide
/-- Source 4, destination 7, effect 4, ALU code 5. -/
theorem test_decode_shl : decode 0x4745 0x0003 = .shl ⟨.imm, .reg .r3, false, .always, 3, 0⟩ := by decide
/-- Source 4, destination 2 with offset 7, effect 5, ALU code 6. -/
theorem test_decode_shr : decode 0x4256 0x7001 = .shr ⟨.imm, .mem .r2, false, .onOverflow, 1, 7⟩ := by decide
/-- Source 8, destination 3 with offset -8, effect 6, ALU code 7. -/
theorem test_decode_swap : decode 0x8367 0x8FFF = .swap ⟨.flags, .mem .r3, false, .onError, 0xFFFF, 8⟩ := by decide
/-- Source 10, destination 5, effect 7, ALU code 8. -/
theorem test_decode_msb : decode 0xA578 0x0FFF = .msb ⟨.mem .r5, .reg .r1, false, .onInterrupt, 0x0FFF, 0⟩ := by decide
/-- Source 11, destination 11 with offset 1, ALU code 9: the 12-bit immediate is not signed. -/
theorem test_decode_lsb : decode 0xBB49 0x1FFF = .lsb ⟨.mem .r6, .mem .r6, false, .always, 0x0FFF, 1⟩ := by decide
/-- Row E7. -/
theorem test_decode_add : decode 0x614A 0x8800 = .add ⟨.reg .r2, .mem .r1, false, .always, 0xF800, 8⟩ := by decide
/-- Source 12, destination 4, ALU code 11. -/
theorem test_decode_sub : decode 0xC44B 0x0000 = .sub ⟨.ih, .flags4, false, .always, 0, 0⟩ := by decide
/-- Source 13, destination 8, ALU code 12. -/
theorem test_decode_mul : decode 0xD84C 0x0000 = .mul ⟨.reg .r4, .flags, false, .always, 0, 0⟩ := by decide
/-- Source 14, destination 12, ALU code 13. -/
theorem test_decode_div : decode 0xEC4D 0x0000 = .div ⟨.reg .r5, .ih, false, .always, 0, 0⟩ := by decide
/-- Source 15, destination 10 with push, ALU code 14. -/
theorem test_decode_page : decode 0xFACE 0x0800 = .page ⟨.reg .r6, .mem .r5, true, .always, 0xF800, 0⟩ := by decide
/-- Row E11. -/
theorem test_decode_oand : decode 0xFFFF 0xFFFF = .oand ⟨.reg .r6, .reg .r6, true, .onInterrupt, 0xFFFF, 0⟩ := by decide

/-- The numbering of spec/opcode_table.json: word 1 in bits 31:16. -/
theorem test_table_word : decodeTableWord 32 0x614A2000 = some (decode 0x614A 0x2000) := by decide

/-- R42: high byte first; R70: two words an instruction. -/
theorem test_decode_bytes :
    decodeBytes [0x41, 0xC0, 0x00, 0x42, 0x99] = .ok (decode 0x41C0 0x0042, [0x99]) := by rfl

/-! ## One instruction on the start state of 95_test_vectors.md section 2.4 -/

/-- The start state of section 2.4, flags and overflow register as given. -/
def start (flags oflow : Word) : State where
  dev := Device.reset Config.processorParams [(0x00FF, 0x0001), (0x0100, 0x0009), (0x0102, 0x0007)]
  core := { Core.reset with r1 := 0x0100, r2 := 0x0005, pc := 0x0020, next := 0x0022, flags := flags, oflow := oflow }
  others := []
  draws := 0

/-- The state after one instruction, if there is one. -/
def after (i : Instr) (s : State) : Option State :=
  match exec i s with
  | .next t => some t
  | .fault _ => none
  | .refused _ => none

/-- The state after one step, if there is one. -/
def stepped (s : State) : Option State :=
  match step s with
  | .next t => some t
  | .fault _ => none
  | .refused _ => none

theorem after_some {i : Instr} {s t : State} (h : after i s = some t) : exec i s = .next t := by
  unfold after at h
  split at h
  · simp_all
  · cases h
  · cases h

theorem stepped_some {s t : State} (h : stepped s = some t) : step s = .next t := by
  unfold stepped at h
  split at h
  · simp_all
  · cases h
  · cases h

/-- An instruction completes in a state that a check accepts. -/
theorem exec_witness {i : Instr} {s : State} (p : State → Bool) (h : (after i s).any p = true) :
    ∃ t, exec i s = .next t ∧ p t = true := by
  cases ha : after i s with
  | none => simp [ha] at h
  | some t => exact ⟨t, after_some ha, by simpa [ha] using h⟩

/-- `R2` with an instruction on a value `d` of it, from the immediate `s`: result, flags, overflow register. -/
def aluRun (op : Fields → Instr) (s d flags oflow : Word) : Option (Word × Word × Word) :=
  (after (op ⟨.imm, .reg .r2, false, .always, s, 0⟩) ((start flags oflow).setReg .r2 d)).map
    (fun t => (t.core.r2, t.core.flags, t.core.oflow))

/-- Row COPY 0000 FFFF 001F FFFF. -/
theorem test_copy_keeps_flags : aluRun .copy 0x0000 0xFFFF 0x001F 0xFFFF = some (0x0000, 0x001F, 0xFFFF) := by decide
/-- Row AND 0000 FFFF 0000 0001: C comes from the overflow register. -/
theorem test_and_carry : aluRun .and 0x0000 0xFFFF 0x0000 0x0001 = some (0x0000, 0x0005, 0x0001) := by decide
/-- Row OR 0000 0000 001E 0000. -/
theorem test_or_keeps_v_and_e : aluRun .or 0x0000 0x0000 0x001E 0x0000 = some (0x0000, 0x0019, 0x0000) := by decide
/-- Row XOR FFFF 00FF. -/
theorem test_xor : aluRun .xor 0xFFFF 0x00FF 0x0000 0x0000 = some (0xFF00, 0x0002, 0x0000) := by decide
/-- Row INV 00FF 1234: the destination value is ignored. -/
theorem test_inv : aluRun .inv 0x00FF 0x1234 0x0000 0x0000 = some (0xFF00, 0x0002, 0x0000) := by decide
/-- Row SHL 0014 1234: count 20. -/
theorem test_shl_past_the_word : aluRun .shl 0x0014 0x1234 0x0000 0x0000 = some (0x0000, 0x0001, 0x2340) := by decide
/-- Row SHL 0001 4000 in signed mode. -/
theorem test_shl_signed : aluRun .shl 0x0001 0x4000 0x0020 0x0000 = some (0x8000, 0x0022, 0x0000) := by decide
/-- Row SHR 0001 8003, logical. -/
theorem test_shr_logical : aluRun .shr 0x0001 0x8003 0x0000 0x0000 = some (0x4001, 0x0000, 0x8000) := by decide
/-- Row SHR 0011 8000, arithmetic, count 17. -/
theorem test_shr_arithmetic : aluRun .shr 0x0011 0x8000 0x0020 0x0000 = some (0xFFFF, 0x0022, 0xC000) := by decide
/-- Row SWAP 12AB. -/
theorem test_swap : aluRun .swap 0x12AB 0x0000 0x0000 0x0000 = some (0xAB12, 0x0002, 0x0000) := by decide
/-- Row MSB 12AB. -/
theorem test_msb : aluRun .msb 0x12AB 0x0000 0x0000 0x0000 = some (0x1200, 0x0000, 0x0000) := by decide
/-- Row LSB FFFF. -/
theorem test_lsb : aluRun .lsb 0xFFFF 0x0000 0x0000 0x0000 = some (0x00FF, 0x0000, 0x0000) := by decide
/-- Row ADD 8000 8000: Z, C and V. -/
theorem test_add_carry_and_overflow : aluRun .add 0x8000 0x8000 0x0000 0x0000 = some (0x0000, 0x000D, 0x0001) := by
  decide
/-- Row SUB 0001 0000: borrow, no signed overflow. -/
theorem test_sub_borrow : aluRun .sub 0x0001 0x0000 0x0000 0x0000 = some (0xFFFF, 0x0006, 0xFFFF) := by decide
/-- Row SUB 8000 7FFF: signed overflow. -/
theorem test_sub_overflow : aluRun .sub 0x8000 0x7FFF 0x0000 0x0000 = some (0xFFFF, 0x000E, 0xFFFF) := by decide
/-- Row MUL FFFF FFFF, unsigned. -/
theorem test_mul_unsigned : aluRun .mul 0xFFFF 0xFFFF 0x0000 0x0000 = some (0x0001, 0x0000, 0xFFFE) := by decide
/-- Row MUL 8000 FFFF, signed: V. -/
theorem test_mul_signed : aluRun .mul 0x8000 0xFFFF 0x0020 0x0000 = some (0x8000, 0x002A, 0x0000) := by decide
/-- Row DIV 0002 FFF9, signed -7 by 2. -/
theorem test_div_signed : aluRun .div 0x0002 0xFFF9 0x0020 0x0000 = some (0xFFFD, 0x0026, 0xFFFF) := by decide
/-- Row DIV 0000 1234: by zero. -/
theorem test_div_by_zero : aluRun .div 0x0000 0x1234 0x0000 0x0003 = some (0x1234, 0x0014, 0x0003) := by decide
/-- Row PAGE FFFF. -/
theorem test_page : aluRun .page 0xFFFF 0x0000 0x0000 0x0001 = some (0xFF00, 0x0006, 0x0001) := by decide
/-- Row OAND FF00 1234 0000 1234. -/
theorem test_oand : aluRun .oand 0xFF00 0x1234 0x0000 0x1234 = some (0x1200, 0x0000, 0x1234) := by decide

/-- Row I2: pop into the pointer itself. -/
theorem test_pop_into_its_own_pointer :
    (after (decode 0x15C0 0x0000) (start 0 0)).map (fun t => t.core.r1) = some 0x000A := by decide

/-- Row I6: push with offset -1. -/
theorem test_push_with_offset :
    (after (decode 0x61CA 0xF000) (start 0 0)).map (fun t => (t.core.r1, t.dev.load 0x00FE)) = some (0x00FF, 0x0005) := by
  decide

/-- Row I16, as a whole step: the self-jump halts with the word at `R[1]`. -/
theorem test_step_halts :
    (stepped ((start 0 0).withFetchWord 32 0x00400000)).map (fun t => (t.core.run, t.core.pc)) =
      some (.halted 0x0009, 0x0020) := by decide

/-- Row I34: the processor's own status slot keeps 8 bits. -/
theorem test_own_status_slot :
    (after (decode 0x4940 0x4777) (start 0 0)).map (fun t => t.dev.status) = some 0x77 := by decide

/-- Row I26: the reserved combination. -/
theorem test_reserved_increment : exec (decode 0x65C0 0x0000) (start 0 0) = .refused .reservedIncrement := by rfl

/-! ## A system of four devices -/

/-- Parameters with an id, an address width and a ROM region. -/
def params (id : Word) (aw rom : Nat) (connected : List (Byte × Word)) : DeviceParams where
  id := id
  addressWidth := aw
  romEnd := rom
  deviceType := 0x07
  bankIndex := 0x12
  connected := connected

/-- A halted leaf device, claimed by an init device or not (0). -/
def leaf (id initDevice : Word) : Node where
  dev := { Device.reset (params id 8 0x10 []) [(0x00, 0x1111), (0x20, 0x2222)] with initDevice := initDevice }
  kind := .leaf { halted := .fixed true, readHooks := [7] }

/-- A processor with a run state, claimed by device 1. -/
def processor (id : Word) (run : RunState) : Node where
  dev := { Device.reset (params id 8 0 []) [(0x10, 0x3333)] with initDevice := 1 }
  kind := .processor { Core.reset with r3 := 0x0077, pc := 0x0010, next := 0x0012, run := run }

/-- Processor 1 at pc 0x20, connected to leaf 3 (index 0x20), processor 2 (index 0x21) and leaf 4 (index 0x22, claimed
by device 9); `R4` to `R6` point at their control slots. The instruction at its pc is `COPY #1 -> [[R4+2]]`
(words 4940 2001), which claims leaf 3. -/
def system (run : RunState) : State where
  dev := { Device.reset (params 1 16 0x30 [(0x20, 3), (0x21, 2), (0x22, 4)]) [(0x20, 0x4940), (0x21, 0x2001)]
    with initDevice := 0 }
  core := { Core.reset with r4 := 0x0200, r5 := 0x0210, r6 := 0x0220, pc := 0x0020, next := 0x0022 }
  others := [leaf 3 0, processor 2 run, leaf 4 9]
  draws := 5

/-- `COPY #1 -> [[R4+2]]`. -/
def claim : Instr := .copy ⟨.imm, .mem .r4, false, .always, 1, 2⟩

/-- R174: the store claims leaf 3 for processor 1. -/
theorem test_claim_through_the_bus :
    (after claim (system .running)).map (fun t => (findNode 3 t.others).map (fun n => n.dev.initDevice)) =
      some (some 1) := by decide

/-! ## The device gate, rows of 95_test_vectors.md section 2.5 -/

/-- G5, G6, G25, G27: claim, a stranger's write, hand over, release. -/
theorem test_claim_hand_over_release :
    ((leaf 3 0).ctlWrite 7 2 0x1234 0).dev.initDevice = 7 ∧ ((leaf 3 7).ctlWrite 9 2 5 0).dev.initDevice = 7 ∧
    ((leaf 3 7).ctlWrite 7 2 9 0).dev.initDevice = 9 ∧ ((leaf 3 9).ctlWrite 9 2 0 0).dev.initDevice = 0 := by decide

/-- G30, G31: `R3` of a processor, by its init device while it runs, then when it has halted, and by its owner. -/
theorem test_introspection_needs_a_halted_processor :
    (processor 2 .running).ctlRead 1 11 0 = 0 ∧ (processor 2 (.halted 0)).ctlRead 1 11 0 = 0x0077 ∧
    (processor 2 (.halted 0)).ctlRead 2 11 0 = 0 := by decide

/-! ## One witness for each statement with hypotheses -/

/-- The highest immediate and the lowest offset of the form with two memory operands. -/
theorem test_meets_DecodeOfEncodeIsTheInstruction :
    (Instr.div ⟨.mem .r6, .mem .r6, true, .onError, 0x0FFF, 0x8⟩).WellFormed := by decide

theorem test_meets_FieldsOfWordTwo :
    (decode 0x1140 0xFFFF).fields.dest.isMem = true ∧ (decode 0x4640 0xFFFF).fields.dest.isMem = false := by decide

/-- Each clause, at both ends of its range. -/
theorem test_meets_ImmediateAndOffsetOfWordTwo :
    (decode 0x1140 0x0FFF).fields.dest.isMem = true ∧ (decode 0x1140 0x0FFF).fields.source.isMem = true ∧
    (decode 0x1140 0x0000).fields.dest.isMem = true ∧ (decode 0x1140 0x0000).fields.source.isMem = true ∧
    (decode 0x4140 0x77FF).fields.dest.isMem = true ∧ (decode 0x4140 0x77FF).fields.source.isMem = false ∧
    (decode 0x4140 0x8800).fields.dest.isMem = true ∧ (decode 0x4140 0x8800).fields.source.isMem = false ∧
    (decode 0x4640 0xFFFF).fields.dest.isMem = false := by decide

/-- Both sides hold of row E11, the increment bit of FFFF with operand codes 15. -/
theorem test_meets_OnlyReservedWordsAreRefused :
    exec (decode 0xFFFF 0xFFFF) (start 0 0) = .refused .reservedIncrement ∧
    (0xFFFF : Word).getLsbD 7 = true ∧
    ¬((0xFFFF : Word).getLsbD 10 = false ∧ (0xFFFF : Word).extractLsb' 8 2 ≠ 0) ∧
    ¬((0xFFFF : Word).getLsbD 14 = false ∧ (0xFFFF : Word).extractLsb' 12 2 ≠ 0) := ⟨rfl, by decide⟩

/-- `[R1] -> R2` with pop: source value 9, destination value 5 on the start state. -/
def popFields : Fields := ⟨.mem .r1, .reg .r2, true, .always, 0, 0⟩

/-- `#s -> R2`. -/
def immFields (s : Word) : Fields := ⟨.imm, .reg .r2, false, .always, s, 0⟩

theorem test_meets_CopyCompletes : popFields.reserved = false := by decide

theorem test_meets_LogicCompletes :
    popFields.reserved = false ∧ 9 = (start 0 0).srcValue popFields ∧ 5 = (start 0 0).dstValue popFields := by decide

theorem test_meets_OneOperandCompletes :
    popFields.reserved = false ∧ 9 = (start 0 0).srcValue popFields := by decide

theorem test_meets_BusSupportCompletes :
    (immFields 0xFFFF).reserved = false ∧ 0xFFFF = (start 0 0xFFFF).srcValue (immFields 0xFFFF) := by decide

/-- Counts 1 and 16, the ends of the carry clause. -/
theorem test_meets_ShlCompletes :
    ((immFields 1).reserved = false ∧ 1 = (start 0 0).srcValue (immFields 1) ∧ 5 = (start 0 0).dstValue (immFields 1) ∧
      1 ≤ (1 : Word).toNat ∧ (1 : Word).toNat ≤ 16) ∧
    ((immFields 16).reserved = false ∧ 16 = (start 0 0).srcValue (immFields 16) ∧
      5 = (start 0 0).dstValue (immFields 16) ∧ 1 ≤ (16 : Word).toNat ∧ (16 : Word).toNat ≤ 16) := by decide

theorem test_meets_ShrCompletes :
    (immFields 0xFFFF).reserved = false ∧ 0xFFFF = (start 0x20 0).srcValue (immFields 0xFFFF) ∧
    5 = (start 0x20 0).dstValue (immFields 0xFFFF) := by decide

theorem test_meets_AddCompletes :
    (immFields 0x7FFF).reserved = false ∧ 0x7FFF = (start 0 0).srcValue (immFields 0x7FFF) ∧
    5 = (start 0 0).dstValue (immFields 0x7FFF) := by decide

theorem test_meets_SubCompletes :
    (immFields 0x8000).reserved = false ∧ 0x8000 = (start 0 0).srcValue (immFields 0x8000) ∧
    5 = (start 0 0).dstValue (immFields 0x8000) := by decide

/-- Unsigned mode, then signed mode. -/
theorem test_meets_MulCompletes :
    ((immFields 0xFFFF).reserved = false ∧ 0xFFFF = (start 0 0).srcValue (immFields 0xFFFF) ∧
      5 = (start 0 0).dstValue (immFields 0xFFFF) ∧ (start 0 0).core.flags.getLsbD 5 = false) ∧
    (0xFFFF = (start 0x20 0).srcValue (immFields 0xFFFF) ∧ 5 = (start 0x20 0).dstValue (immFields 0xFFFF) ∧
      (start 0x20 0).core.flags.getLsbD 5 = true) := by decide

/-- Unsigned mode, then signed mode: the most negative dividend by -1. -/
theorem test_meets_DivCompletes :
    ((immFields 0xFFFF).reserved = false ∧ 0xFFFF = (start 0 0).srcValue (immFields 0xFFFF) ∧
      5 = (start 0 0).dstValue (immFields 0xFFFF) ∧ (0xFFFF : Word) ≠ 0 ∧ (start 0 0).core.flags.getLsbD 5 = false) ∧
    (0xFFFF = ((start 0x20 0).setReg .r2 0x8000).srcValue (immFields 0xFFFF) ∧
      0x8000 = ((start 0x20 0).setReg .r2 0x8000).dstValue (immFields 0xFFFF) ∧
      ((start 0x20 0).setReg .r2 0x8000).core.flags.getLsbD 5 = true) := by decide

theorem test_meets_DivByZeroCompletes :
    (immFields 0).reserved = false ∧ (start 0 0).srcValue (immFields 0) = 0 := by decide

theorem test_meets_EffectsDecideTheStore :
    Effect.onZero.code = 0 ∧ Effect.onNotZero.code = 1 ∧ Effect.onNegative.code = 2 ∧ Effect.never.code = 3 ∧
    Effect.always.code = 4 ∧ Effect.onOverflow.code = 5 ∧ Effect.onError.code = 6 ∧ Effect.onInterrupt.code = 7 := by
  decide

/-- A false condition (row E12, effect 0 with Z clear), and row I4, a push with effect 3. -/
theorem test_meets_EffectNeverIsAPureTest :
    ((start 0 0).latch 0 0).stores (decode 0x0000 0x0000).fields = false ∧
    (decode 0x41B0 0x0042).fields.reserved = false ∧ (decode 0x41B0 0x0042).fields.effect = .never := by decide

/-- Row I24, and an instruction with effect 0. -/
theorem test_meets_InterruptOnlyDecidesTheStore :
    (decode 0xC070 0x0000).fields.effect = .onInterrupt ∧ (decode 0x0000 0x0000).fields.effect ≠ .onInterrupt := by decide

/-- A pop into another register, and row I2: a pop into the pointer itself. -/
theorem test_meets_RegisterDestinationLands :
    (popFields.dest = .reg .r2 ∧ popFields.pop = true ∧ popFields.source = .mem .r1 ∧
      ((start 0 0).latch 0 0).stores popFields = true) ∧
    ((decode 0x15C0 0).fields.dest = .reg .r1 ∧ (decode 0x15C0 0).fields.pop = true ∧
      ((start 0 0).latch 0 0).stores (decode 0x15C0 0).fields = true) := by decide

/-- Row I16 (halt), row I18 (no halt) and the return `COPY [R1] -> pc pop` of R138. -/
theorem test_meets_PcDestinationJumpsOrHalts :
    ((decode 0x0040 0).fields.dest = .pc ∧ (decode 0x0040 0).fields.source = .pc ∧
      (start 0 0).srcValue (decode 0x0040 0).fields = (start 0 0).core.pc ∧
      ((start 0 0).latch 0 0).stores (decode 0x0040 0).fields = true) ∧
    ((decode 0x4040 0x20).fields.dest = .pc ∧ (decode 0x4040 0x20).fields.source ≠ .pc ∧
      ((start 0 0).latch 0 0).stores (decode 0x4040 0x20).fields = true) ∧
    ((decode 0x10C0 0).fields.dest = .pc ∧ (decode 0x10C0 0).fields.source = .mem .r1 ∧
      (decode 0x10C0 0).fields.pop = true ∧ ((start 0 0).latch 0 0).stores (decode 0x10C0 0).fields = true) := by decide

/-- Rows I20, I30 and I22: flags, its second code, `ih`; and a pop into the flags. -/
theorem test_meets_FlagsAndHandlerDestinationsLand :
    ((decode 0x4840 0x20).fields.dest = .flags ∧ ((start 0 0).latch 0 0).stores (decode 0x4840 0x20).fields = true) ∧
    ((decode 0x4400 1).fields.dest = .flags4 ∧ ((start 1 0).latch 1 0).stores (decode 0x4400 1).fields = true) ∧
    ((decode 0x4C40 0x300).fields.dest = .ih ∧ ((start 0 0).latch 0 0).stores (decode 0x4C40 0x300).fields = true) ∧
    ((decode 0x18C0 0).fields.dest = .flags ∧ (decode 0x18C0 0).fields.source = .mem .r1 ∧
      (decode 0x18C0 0).fields.pop = true ∧ ((start 0 0).latch 0 0).stores (decode 0x18C0 0).fields = true) := by
  decide

/-- `#1 -> [R1+offset]`, with push or not. -/
def storeFields (push : Bool) (offset : BitVec 4) : Fields := ⟨.imm, .mem .r1, push, .always, 1, offset⟩

/-- A push at the first word above the ROM region, and a push at the last word in it. -/
theorem test_meets_LocalDestinationLands :
    (storeFields true 0).dest = .mem .r1 ∧ Reg.r1.isLocal = true ∧
    (system .running).dev.params.addressWidth ≠ 0 ∧ ((system .running).latch 0 0).stores (storeFields true 0) = true ∧
    ((system .running).setReg .r1 0x31).dev.index (((system .running).setReg .r1 0x31).dstAddr (storeFields true 0) .r1) =
      (system .running).dev.params.romEnd ∧
    ((system .running).setReg .r1 0x30).dev.index (((system .running).setReg .r1 0x30).dstAddr (storeFields true 0) .r1) <
      (system .running).dev.params.romEnd := by decide

/-- Leaf 3 is connected to the test system at index 0x20. -/
theorem system_connects (run : RunState) : (system run).Connects 0x20 (leaf 3 0) :=
  ⟨by decide, 3, by simp [system, Device.reset, params], by simp [system, findNode, Node.id, leaf, Device.reset, params]⟩

/-- `COPY #1 -> [[R4+2]]` at slot 2 of leaf 3, and at the last word of its window. -/
theorem test_meets_BankedDestinationLands :
    claim.fields.dest = .mem .r4 ∧ Reg.r4.isLocal = false ∧ ((system .running).latch 0 0).stores claim.fields = true ∧
    busTarget ((system .running).dstAddr claim.fields .r4) = .control 0x20 2 ∧
    busTarget (((system .running).setReg .r4 0x20FD).dstAddr claim.fields .r4) = .block 0x20 0xFF ∧
    (system .running).Connects 0x20 (leaf 3 0) ∧ ((system .running).setReg .r4 0x20FD).Connects 0x20 (leaf 3 0) :=
  ⟨by decide, by decide, by decide, by decide, by decide, system_connects _, system_connects _⟩

/-- The push lands on the first word above the ROM region. -/
theorem test_meets_CopyPushes :
    (storeFields true 0).dest = .mem .r1 ∧ Reg.r1.isLocal = true ∧ (storeFields true 0).increment = true ∧
    (storeFields true 0).effect = .always ∧ (system .running).dev.params.addressWidth ≠ 0 ∧
    (system .running).dev.params.romEnd ≤ (system .running).dev.index
      (((system .running).setReg .r1 0x31).core.reg .r1 + (storeFields true 0).offset.signExtend 16 - 1) := by decide

theorem test_meets_CopyPops :
    popFields.source = .mem .r1 ∧ Reg.r1.isLocal = true ∧ popFields.dest = .reg .r2 ∧ Reg.r2 ≠ Reg.r1 ∧
    popFields.increment = true ∧ popFields.effect = .always := by decide

theorem test_meets_OtherRegistersAreKept :
    (∃ t, exec (.copy popFields) (start 0 0) = .next t) ∧ ¬(Instr.copy popFields).fields.mayWrite .r3 :=
  ⟨(exec_witness (fun _ => true) (by decide)).imp fun _ h => h.1,
    by simp [Fields.mayWrite, popFields, Instr.fields]⟩

/-- An ADD into `R2` (the first clauses) and a DIV by zero (the last clause). -/
theorem test_meets_FlagsAndOverflowFrame :
    (∃ t, exec (.add popFields) (start 0 0) = .next t) ∧ popFields.dest ≠ .flags ∧ popFields.dest ≠ .flags4 ∧
    (∃ t, exec (.div (immFields 0)) (start 0 0) = .next t) ∧ (Instr.div (immFields 0)).aluCode = 0xD ∧
    (start 0 0).srcValue (immFields 0) = 0 ∧ (Instr.div (immFields 0)).writesV = false ∧
    (Instr.copy popFields).writesOflow = false ∧ (Instr.copy popFields).aluCode = 0 ∧
    (∃ t, exec (.copy popFields) (start 0 0) = .next t) :=
  ⟨(exec_witness (fun _ => true) (by decide)).imp fun _ h => h.1, by decide, by decide,
    (exec_witness (fun _ => true) (by decide)).imp fun _ h => h.1, by decide, by decide, by decide, by decide,
    by decide, (exec_witness (fun _ => true) (by decide)).imp fun _ h => h.1⟩

theorem test_meets_NoMemoryDestinationFrame :
    (∃ t, exec (.add popFields) (start 0 0) = .next t) ∧ (Instr.add popFields).fields.dest.isMem = false ∧
    (Instr.add popFields).fields.dest ≠ .ih :=
  ⟨(exec_witness (fun _ => true) (by decide)).imp fun _ h => h.1, by decide, by decide⟩

/-- The destination address is 0x30, the first above the ROM region; addresses 0x31 and 0x2F are kept. -/
theorem test_meets_LocalDestinationFrame :
    (∃ t, exec (.add (storeFields true 0)) ((system .running).setReg .r1 0x31) = .next t) ∧
    (storeFields true 0).dest = .mem .r1 ∧ Reg.r1.isLocal = true ∧
    (system .running).dev.index 0x31 ≠
      (system .running).dev.index (((system .running).setReg .r1 0x31).dstAddr (storeFields true 0) .r1) ∧
    (system .running).dev.index 0x2F < (system .running).dev.params.romEnd :=
  ⟨(exec_witness (fun _ => true) (by decide)).imp fun _ h => h.1, by decide, by decide, by decide, by decide⟩

/-- `#1 -> [[R4]]`. -/
def busFields : Fields := ⟨.imm, .mem .r4, false, .always, 1, 0⟩

/-- An own slot, a control slot of leaf 3, a word of its window; leaf 4 and a word beside the one written are kept. -/
theorem test_meets_BankedDestinationFrame :
    (∃ t, exec (.copy busFields) ((system .running).setReg .r4 15) = .next t) ∧
    (∃ t, exec (.copy busFields) ((system .running).setReg .r4 0x0202) = .next t) ∧
    (∃ t, exec (.copy busFields) ((system .running).setReg .r4 0x20FF) = .next t) ∧
    busFields.dest = .mem .r4 ∧ Reg.r4.isLocal = false ∧
    busTarget (((system .running).setReg .r4 15).dstAddr busFields .r4) = .own 15 ∧
    busTarget (((system .running).setReg .r4 0x0202).dstAddr busFields .r4) = .control 0x20 2 ∧
    busTarget (((system .running).setReg .r4 0x20FF).dstAddr busFields .r4) = .block 0x20 0xFF ∧
    (system .running).connectedId 0x20 ≠ some 4 ∧
    findNode 3 (system .running).others = some (leaf 3 0) ∧
    (leaf 3 0).dev.index 0x00FE ≠ (leaf 3 0).dev.index ((leaf 3 0).dev.windowAddr 0xFF) :=
  ⟨(exec_witness (fun _ => true) (by decide)).imp fun _ h => h.1,
    (exec_witness (fun _ => true) (by decide)).imp fun _ h => h.1,
    (exec_witness (fun _ => true) (by decide)).imp fun _ h => h.1, by decide, by decide, by decide, by decide,
    by decide, by decide, by decide, by decide⟩

/-- Row I16. -/
theorem test_meets_OnlyASelfJumpHalts :
    ∃ t, exec (decode 0x0040 0) (start 0 0) = .next t ∧ t.core.run ≠ (start 0 0).core.run := by
  obtain ⟨t, ht, hp⟩ := exec_witness (i := decode 0x0040 0) (s := start 0 0)
    (fun t => decide (t.core.run ≠ (start 0 0).core.run)) (by decide)
  exact ⟨t, ht, of_decide_eq_true hp⟩

/-- Both ends of each clause. -/
theorem test_meets_BusAddressSplit :
    (15 : Word).toNat < 16 ∧ 16 ≤ (16 : Word).toNat ∧ (16 : Word).toNat < 4096 ∧
    (4095 : Word).toNat < 4096 ∧ 4096 ≤ (4096 : Word).toNat ∧ 4096 ≤ (65535 : Word).toNat := by decide

/-- A stranger to an unclaimed halted leaf, and the init device of a processor that runs. -/
theorem test_meets_GateDropsOtherAccesses :
    (leaf 3 0).admits 1 0 = false ∧ (processor 2 .running).admits 1 0 = false := by decide

theorem test_meets_ReadOnlySlots : (leaf 3 7).admits 7 0 = true := by decide

/-- The owner, a claim, the init device of a halted device, a stranger. -/
theorem test_meets_SlotTwoClaims :
    (7 : Word) = (if (3 : Word) = (leaf 3 7).id then (leaf 3 7).dev.initDevice else 0) ∧
    ((1 : Word) ≠ (leaf 3 0).id ∧ (leaf 3 0).dev.initDevice = 0) ∧
    ((7 : Word) ≠ (leaf 3 7).id ∧ (leaf 3 7).dev.initDevice ≠ 0 ∧ 7 = (leaf 3 7).dev.initDevice ∧
      (leaf 3 7).halted 0 = true) ∧
    ((9 : Word) ≠ (leaf 3 7).id ∧ (leaf 3 7).dev.initDevice ≠ 0 ∧ 9 ≠ (leaf 3 7).dev.initDevice) := by decide

/-- The owner, and the init device of a halted device; a leaf device's slots 6 to 15, with and without a read hook; a
leaf device with the halted predicate stated and with it left open. -/
theorem test_meets_AdmittedSlotsReadBack :
    (leaf 3 0).admits 3 0 = true ∧ (leaf 3 7).admits 7 0 = true ∧
    (leaf 3 7).kind = .leaf ⟨.fixed true, [7]⟩ ∧ 6 ≤ (6 : BitVec 4).toNat ∧ 6 ≤ (15 : BitVec 4).toNat ∧
    (7 : BitVec 4) ∈ [(7 : BitVec 4)] ∧ (6 : BitVec 4) ∉ [(7 : BitVec 4)] ∧
    ({ leaf 3 7 with kind := .leaf ⟨.free, []⟩ } : Node).kind = .leaf ⟨.free, []⟩ := by decide

/-- The init device of a halted processor; a stranger to it and the init device of one that runs; the first and last
slots of the clauses over a slot. -/
theorem test_meets_IntrospectionSlots :
    (processor 2 (.halted 0)).kind =
      .processor { Core.reset with r3 := 0x0077, pc := 0x0010, next := 0x0012, run := .halted 0 } ∧
    (processor 2 (.halted 0)).admitsIntrospection 1 0 = true ∧
    (processor 2 (.halted 0)).admitsIntrospection 9 0 = false ∧ (processor 2 .running).admitsIntrospection 1 0 = false ∧
    (8 ≤ (8 : BitVec 4).toNat ∧ (8 : BitVec 4).toNat ≤ 14) ∧ (8 ≤ (14 : BitVec 4).toNat ∧ (14 : BitVec 4).toNat ≤ 14) ∧
    6 ≤ (6 : BitVec 4).toNat ∧ 6 ≤ (15 : BitVec 4).toNat := by decide

/-- The first word above the ROM region of the window. -/
theorem test_meets_BlockWindowReadsBack :
    (leaf 3 7).admits 7 0 = true ∧ (leaf 3 7).dev.params.addressWidth ≠ 0 ∧
    (leaf 3 7).dev.params.romEnd ≤ (leaf 3 7).dev.index ((leaf 3 7).dev.windowAddr 0x10) := by decide

/-- Control space and block space of index 0xFF, and index 0 in block space. -/
theorem test_meets_AbsentDeviceReadsZero :
    (system .running).deviceAt 0xFF = none ∧ busTarget 0x0FFF = .control 0xFF 15 ∧
    busTarget 0xFFFF = .block 0xFF 0xFF ∧ (system .running).deviceAt 0x10 = none ∧
    busTarget 0x1000 = .block 0x10 0x00 := by decide

theorem test_meets_OwnSlotsOnTheBus :
    6 ≤ (6 : Word).toNat ∧ (6 : Word).toNat < 16 ∧ 6 ≤ (15 : Word).toNat ∧ (15 : Word).toNat < 16 := by decide

/-- A step to a next state on a system with other processors, a lone processor, and the reserved combination. -/
theorem test_meets_StepRunsTheDecodedInstruction :
    ((system .running).core.run = .running ∧
      decode ((system .running).dev.load (system .running).core.pc)
        ((system .running).dev.load ((system .running).core.pc + 1)) = claim ∧
      claim.WellFormed ∧ ∃ t, exec claim (system .running) = .next t) ∧
    ((start 0 0).core.run = .running ∧ decode ((start 0 0).dev.load 0x20) ((start 0 0).dev.load 0x21) = decode 0 0 ∧
      (decode 0 0).WellFormed ∧ ∃ t, exec (decode 0 0) (start 0 0) = .next t ∧ t.others = []) ∧
    ((decode 0x65C0 0).WellFormed ∧ exec (decode 0x65C0 0) (start 0 0) = .refused .reservedIncrement) := by
  refine ⟨⟨by decide, by decide, by decide, ?_⟩, ⟨by decide, by decide, by decide, ?_⟩, by decide, rfl⟩
  · exact (exec_witness (fun _ => true) (by decide)).imp fun _ h => h.1
  · obtain ⟨t, ht, hp⟩ := exec_witness (i := decode 0 0) (s := start 0 0) (fun t => decide (t.others = [])) (by decide)
    exact ⟨t, ht, of_decide_eq_true hp⟩

/-- A processor alone and halted with code 9. -/
def stopped : State := { start 0 0 with core := { (start 0 0).core with run := .halted 9 } }

/-- Both sides hold of a lone halted processor. -/
theorem test_meets_StopsOnlyWhenAllHalted :
    step stopped = .fault (.halted 9) ∧ stopped.core.run = .halted 9 ∧
    ∀ n ∈ stopped.others, ∀ c, n.kind = .processor c → c.run ≠ .running :=
  ⟨rfl, rfl, fun _ h => absurd h (by simp [stopped, start])⟩

/-- Both sides hold with row I26 at the pc. -/
theorem test_meets_RefusedOnlyForReservedIncrement :
    step ((start 0 0).withFetchWord 32 0x65C00000) = .refused .reservedIncrement ∧
    ((start 0 0).withFetchWord 32 0x65C00000).core.run = .running ∧
    ((start 0 0).withFetchWord 32 0x65C00000).fetched.fields.reserved = true := ⟨by rfl, by decide, by decide⟩

/-- A step answers a next state, whatever the schedule draws, if the instruction at the pc does. -/
theorem step_witness {s : State} (hr : s.core.run = .running) (h : (after s.fetched s).isSome = true) :
    ∃ t, step s = .next t := by
  obtain ⟨t, ht⟩ := Option.isSome_iff_exists.mp h
  exact ⟨t.handOver, by simp [step, hr, after_some ht]⟩

/-- Row I16: a lone processor that halts. -/
theorem test_meets_TurnGoesToARunningProcessor :
    ∃ t, step ((start 0 0).withFetchWord 32 0x00400000) = .next t ∧ t.core.run ≠ .running := by
  obtain ⟨t, ht⟩ : ∃ t, stepped ((start 0 0).withFetchWord 32 0x00400000) = some t :=
    Option.isSome_iff_exists.mp (by decide)
  refine ⟨t, stepped_some ht, ?_⟩
  have h : (stepped ((start 0 0).withFetchWord 32 0x00400000)).map (fun t => t.core.run) = some (.halted 0x0009) := by
    decide
  rw [ht] at h
  simp at h
  simp [h]

/-- Legality of a device, from its parts. -/
theorem legal_of {n : Node} (h : n.id ≠ 0 ∧
    (n.dev.params.addressWidth = 0 ∨ (8 ≤ n.dev.params.addressWidth ∧ n.dev.params.addressWidth ≤ 16)) ∧
    n.dev.params.romEnd ≤ 2 ^ n.dev.params.addressWidth ∧ (∀ c ∈ n.dev.params.connected, c.1 ≠ 0) ∧
    (∀ c ∈ n.dev.params.connected, c.2 ≠ n.id)) : n.Legal :=
  ⟨h.1, h.2.1, h.2.2.1, h.2.2.2.1, h.2.2.2.2⟩

/-- Soundness of a device, from its parts. -/
theorem sound_of {d : Device} (h : d.mem.wf ∧ ∀ x ∈ d.mem, x.1 < d.memSize) : d.Sound := ⟨h.1, h.2⟩

/-- The test system satisfies the invariant. -/
theorem system_inv (run : RunState) : (system run).Inv where
  legal := by
    intro n hn
    fin_cases hn <;> exact legal_of (by simp [State.selfNode, system, leaf, processor, Device.reset, params, Node.id])
  sound := by
    intro n hn
    fin_cases hn <;>
      exact sound_of (by simp [State.selfNode, system, leaf, processor, Device.reset, params, Device.memSize, Memory.wf])
  processors := by
    intro n hn
    fin_cases hn <;>
      simp [Node.ProcessorSound, State.selfNode, system, leaf, processor, Device.reset, params, Core.reset]
  unique := by
    simp [State.nodes, State.selfNode, system, leaf, processor, Device.reset, params, Node.id]

/-- A change of the executing processor's registers that keeps `next = pc + 2` keeps the invariant. -/
theorem inv_core {s : State} (h : s.Inv) (c : Core) (hc : c.next = c.pc + 2) : ({ s with core := c } : State).Inv where
  legal := List.forall_mem_cons.2 ⟨⟨(h.legal s.selfNode (.head _)).1, (h.legal s.selfNode (.head _)).2,
    (h.legal s.selfNode (.head _)).3, (h.legal s.selfNode (.head _)).4, (h.legal s.selfNode (.head _)).5⟩,
    (List.forall_mem_cons.1 h.legal).2⟩
  sound := List.forall_mem_cons.2 ⟨h.sound s.selfNode (.head _), (List.forall_mem_cons.1 h.sound).2⟩
  processors := List.forall_mem_cons.2 ⟨⟨hc, (h.processors s.selfNode (.head _)).2⟩,
    (List.forall_mem_cons.1 h.processors).2⟩
  unique := h.unique

/-- Processor 1 halted, processor 2 running. -/
def halfStopped : State := { system .running with core := { (system .running).core with run := .halted 7 } }

/-- The last two clauses of the statement: a step at a halted processor, under the invariant. -/
theorem test_meets_StepRunsTheDecodedInstruction_halted :
    halfStopped.core.run = .halted 7 ∧ (∃ t, step halfStopped = .next t) ∧ halfStopped.Inv :=
  ⟨rfl, ⟨_, rfl⟩, inv_core (system_inv _) _ rfl⟩

theorem test_meets_StepKeepsTheInvariant :
    (system .running).Inv ∧ ∃ t, step (system .running) = .next t :=
  ⟨system_inv _, step_witness rfl (by decide)⟩

/-- A processor's ROM of 5 words with a longer image, beside a leaf device and a second processor. -/
theorem test_meets_ConstructedSystemsAreSound :
    (construct ⟨params 1 8 5 [(0x20, 3)], .processor, [0x4540, 0, 0x4640, 0x1234, 0x0040, 0]⟩
        [⟨params 3 0 0 [], .leaf ⟨.free, [6]⟩, []⟩, ⟨params 2 9 0 [], .processor, [0x0040]⟩]).toOption.isSome = true := by
  decide

/-- The ROM region of the processor itself and of leaf 4. -/
theorem test_meets_RomAndParametersAreConstant :
    (system .running).Inv ∧ (∃ t, step (system .running) = .next t) ∧
    (system .running).node 1 = some (system .running).selfNode ∧ 0x2F < (system .running).selfNode.dev.params.romEnd ∧
    (system .running).node 4 = some (leaf 4 9) ∧ 0xF < (leaf 4 9).dev.params.romEnd :=
  ⟨system_inv _, step_witness rfl (by decide), by decide, by decide, by decide, by decide⟩

theorem test_meets_HaltedProcessorsStayHalted :
    (system (.halted 7)).Inv ∧ (∃ t, step (system (.halted 7)) = .next t) ∧
    (system (.halted 7)).node 2 = some (processor 2 (.halted 7)) ∧
    ∃ c, (processor 2 (.halted 7)).kind = .processor c ∧ c.run = .halted 7 :=
  ⟨system_inv _, step_witness rfl (by decide), by decide, _, rfl, rfl⟩

theorem test_meets_RunningProcessorsAreNotDisturbed :
    (system .running).Inv ∧ (∃ t, step (system .running) = .next t) ∧ 2 ≠ (system .running).dev.params.id ∧
    (system .running).node 2 = some (processor 2 .running) ∧
    ∃ c, (processor 2 .running).kind = .processor c ∧ c.run = .running :=
  ⟨system_inv _, step_witness rfl (by decide), by decide, by decide, _, rfl, rfl⟩

/-- `COPY [[R6]] -> R2` reads slot 0 of leaf 4, claimed by device 9, and the step at the pc is `COPY #1 -> [[R4+2]]`; the
other system has leaf 4 claimed by device 8. -/
theorem test_meets_ClaimedDevicesAreOpaqueToOthers :
    (∃ t, exec (decode 0xB640 0) (system .running) = .next t) ∧ (∃ t, step (system .running) = .next t) ∧
    findNode 4 (system .running).others = some (leaf 4 9) ∧ (leaf 4 8).id = 4 ∧
    (4 : Word) ≠ (system .running).dev.params.id ∧ (leaf 4 9).dev.initDevice ≠ 0 ∧
    (leaf 4 9).dev.initDevice ≠ (system .running).dev.params.id ∧ (leaf 4 8).dev.initDevice ≠ 0 ∧
    (leaf 4 8).dev.initDevice ≠ (system .running).dev.params.id ∧ (leaf 4 9).isRunning = false ∧
    (leaf 4 8).isRunning = false :=
  ⟨(exec_witness (fun _ => true) (by decide)).imp fun _ h => h.1, step_witness rfl (by decide), by decide, by decide,
    by decide, by decide, by decide, by decide, by decide, by decide, by decide⟩

/-- An odd length, an even length, and byte numbers at the end of the image. -/
theorem test_meets_LoaderPacksBigEndian :
    [(0x41 : Byte)].length % 2 = 1 ∧ [(0x41 : Byte), 0xC0].length % 2 = 0 ∧
    (packImage [0x41, 0xC0]).toOption = some [0x41C0] ∧ 0 < [(0x41C0 : Word)].length := by decide

/-- Every code is that of an operand, and a device is connected; an address in its control slots and in its window. -/
theorem test_meets_OperandsReadTheirCodes :
    (∀ c : BitVec 4, (Source.ofCode c).code = c ∧ (Dest.ofCode c).code = c) ∧
    (system .running).Connects 0x20 (leaf 3 0) ∧ busTarget 0x020F = .control 0x20 15 ∧
    busTarget 0x2000 = .block 0x20 0 :=
  ⟨by decide, system_connects _, by decide, by decide⟩

end Sys2Proof.Tests
end

section
/-! Slots 0 to 5 of a device as one gated read and write, and the read-only slots 0 and 1 among them
(10_state.md R22, 43_device_bus.md R172, R173, R176). -/

namespace Sys2Proof.Machine

open Sys2Proof

/-- Slots 0 to 5 are read through the ordinary gate, alike in processors and leaf devices (43_device_bus.md R172). -/
theorem Node.ctlRead_of_lt_six (n : Node) (src : Word) {slot : BitVec 4} (draw : Nat) (h : slot.toNat < 6) :
    n.ctlRead src slot draw = if n.admits src draw then n.dev.slotRead slot else 0 := by
  have h6 : ¬ 6 ≤ slot.toNat := Nat.not_le.2 h
  unfold Node.ctlRead
  cases n.kind with
  | processor c => simp only [if_neg h6]
  | leaf k => simp only [if_neg h6]

/-- Slots 0, 1 and 3 to 5 are written through the ordinary gate, alike in processors and leaf devices
(43_device_bus.md R173). -/
theorem Node.ctlWrite_of_lt_six (n : Node) (src : Word) {slot : BitVec 4} (v : Word) (draw : Nat)
    (h : slot.toNat < 6) (h2 : slot ≠ 2) :
    n.ctlWrite src slot v draw = if n.admits src draw then { n with dev := n.dev.slotWrite slot v } else n := by
  have h6 : ¬ 6 ≤ slot.toNat := Nat.not_le.2 h
  unfold Node.ctlWrite
  rw [if_neg h2]
  cases n.kind with
  | processor c => simp only [if_neg h6]
  | leaf k => rfl

/-- An admitted issuer reads what slots 0 to 5 hold. -/
theorem Node.ctlRead_of_admits (n : Node) {src : Word} {slot : BitVec 4} {draw : Nat}
    (ha : n.admits src draw = true) (h : slot.toNat < 6) : n.ctlRead src slot draw = n.dev.slotRead slot := by
  rw [n.ctlRead_of_lt_six src draw h, if_pos ha]

/-- A write to slot 0 or 1 changes nothing, whoever issues it (43_device_bus.md R176). -/
theorem Node.ctlWrite_readOnly (n : Node) (src : Word) {slot : BitVec 4} (v : Word) (draw : Nat)
    (h : slot = 0 ∨ slot = 1) : n.ctlWrite src slot v draw = n := by
  have keeps : n.dev.slotWrite slot v = n.dev := by rcases h with rfl | rfl <;> rfl
  have hlt : slot.toNat < 6 := by rcases h with rfl | rfl <;> decide
  have h2 : slot ≠ 2 := by rcases h with rfl | rfl <;> decide
  rw [n.ctlWrite_of_lt_six src v draw hlt h2, keeps, ite_self]

/-- Two bytes side by side, as a number. -/
theorem byte_append_eq_ofNat (hi lo : Byte) : hi ++ lo = BitVec.ofNat 16 (hi.toNat * 256 + lo.toNat) := by
  have hsum : (hi ++ lo).toNat = hi.toNat * 256 + lo.toNat := by
    rw [BitVec.toNat_append, ← Nat.shiftLeft_add_eq_or_of_lt lo.isLt, Nat.shiftLeft_eq]
  rw [← hsum, BitVec.ofNat_toNat, BitVec.setWidth_eq]

/-- Settles O40: slots 0 and 1 lie below slot 6, so the ordinary gate alone decides the access, and past it the write
keeps the device. -/
theorem readOnlySlots : Obligations.ReadOnlySlots := by
  intro n src v draw
  refine ⟨n.ctlWrite_readOnly src v draw (.inl rfl), n.ctlWrite_readOnly src v draw (.inr rfl), fun ha => ⟨?_, ?_⟩⟩
  · exact n.ctlRead_of_admits ha (by decide)
  · calc n.ctlRead src 1 draw
        = n.dev.params.bankIndex ++ n.dev.params.deviceType := n.ctlRead_of_admits ha (by decide)
      _ = BitVec.ofNat 16 (n.dev.params.bankIndex.toNat * 256 + n.dev.params.deviceType.toNat) :=
        byte_append_eq_ofNat _ _

end Sys2Proof.Machine
end

section
/-! The encoder and the decoder against each other and against the bits of the two words (30_encoding.md R71 to R76,
R83). -/

namespace Sys2Proof

/-! ## What a decoded pair of words is made of -/

@[simp] theorem decode_fields (word1 word2 : Word) : (decode word1 word2).fields = decodeFields word1 word2 :=
  Instr.fields_ofAluCode _ _

@[simp] theorem decode_aluCode (word1 word2 : Word) : (decode word1 word2).aluCode = word1.extractLsb' 0 4 :=
  Instr.aluCode_ofAluCode _ _

/-! ## The two forms of word 2, by the class of the destination (R72, R73) -/

theorem encodeWord2_of_mem {i : Instr} (h : i.fields.dest.isMem = true) :
    encodeWord2 i = i.fields.offset ++ i.fields.imm.extractLsb' 0 12 := if_pos h

theorem encodeWord2_of_not_mem {i : Instr} (h : i.fields.dest.isMem = false) : encodeWord2 i = i.fields.imm :=
  if_neg (by simp [h])

theorem decodeImm_of_mem_mem {source : Source} {dest : Dest} (word2 : Word) (hd : dest.isMem = true)
    (hs : source.isMem = true) : decodeImm source dest word2 = (word2.extractLsb' 0 12).setWidth 16 := by
  rw [decodeImm, if_pos hd, if_pos hs]

theorem decodeImm_of_mem_not_mem {source : Source} {dest : Dest} (word2 : Word) (hd : dest.isMem = true)
    (hs : source.isMem = false) : decodeImm source dest word2 = (word2.extractLsb' 0 12).signExtend 16 := by
  rw [decodeImm, if_pos hd, if_neg (by simp [hs])]

theorem decodeImm_of_not_mem (source : Source) {dest : Dest} (word2 : Word) (hd : dest.isMem = false) :
    decodeImm source dest word2 = word2 :=
  if_neg (by simp [hd])

theorem decodeOffset_of_mem {dest : Dest} (word2 : Word) (hd : dest.isMem = true) :
    decodeOffset dest word2 = word2.extractLsb' 12 4 := if_pos hd

theorem decodeOffset_of_not_mem {dest : Dest} (word2 : Word) (hd : dest.isMem = false) :
    decodeOffset dest word2 = 0 := if_neg (by simp [hd])

/-! ## What well-formed fields are, form by form (R75, R76, R83) -/

theorem Fields.imm_of_wellFormed_mem_mem {f : Fields} (h : f.wellFormed = true) (hd : f.dest.isMem = true)
    (hs : f.source.isMem = true) : (f.imm.extractLsb' 0 12).setWidth 16 = f.imm := by
  simpa [wellFormed, immFits, offsetFits, hd, hs] using h

theorem Fields.imm_of_wellFormed_mem_not_mem {f : Fields} (h : f.wellFormed = true) (hd : f.dest.isMem = true)
    (hs : f.source.isMem = false) : (f.imm.extractLsb' 0 12).signExtend 16 = f.imm := by
  simpa [wellFormed, immFits, offsetFits, hd, hs] using h

theorem Fields.offset_of_wellFormed_not_mem {f : Fields} (h : f.wellFormed = true) (hd : f.dest.isMem = false) :
    f.offset = 0 := by
  simpa [wellFormed, immFits, offsetFits, hd] using h

/-! ## Decoding undoes encoding, field by field (R83) -/

/-- Only a well-formed immediate comes back: the 12 bits of a memory destination's word 2 are extended again. -/
theorem decodeImm_encodeWord2 {i : Instr} (h : i.WellFormed) :
    decodeImm i.fields.source i.fields.dest (encodeWord2 i) = i.fields.imm := by
  cases hd : i.fields.dest.isMem with
  | false => rw [decodeImm_of_not_mem _ _ hd, encodeWord2_of_not_mem hd]
  | true =>
    cases hs : i.fields.source.isMem with
    | true =>
      rw [decodeImm_of_mem_mem _ hd hs, encodeWord2_of_mem hd, append_imm12]
      exact Fields.imm_of_wellFormed_mem_mem h hd hs
    | false =>
      rw [decodeImm_of_mem_not_mem _ hd hs, encodeWord2_of_mem hd, append_imm12]
      exact Fields.imm_of_wellFormed_mem_not_mem h hd hs

theorem decodeOffset_encodeWord2 {i : Instr} (h : i.WellFormed) :
    decodeOffset i.fields.dest (encodeWord2 i) = i.fields.offset := by
  cases hd : i.fields.dest.isMem with
  | false => rw [decodeOffset_of_not_mem _ hd, Fields.offset_of_wellFormed_not_mem h hd]
  | true => rw [decodeOffset_of_mem _ hd, encodeWord2_of_mem hd, append_offset]

theorem decodeFields_encode {i : Instr} (h : i.WellFormed) :
    decodeFields (encodeWord1 i) (encodeWord2 i) = i.fields := by
  simp only [decodeFields, encodeWord1_source, encodeWord1_dest, encodeWord1_increment, encodeWord1_effect,
    Source.ofCode_code, Dest.ofCode_code, Effect.ofCode_code, decodeImm_encodeWord2 h, decodeOffset_encodeWord2 h]

theorem decode_encode {i : Instr} (h : i.WellFormed) : decode (encodeWord1 i) (encodeWord2 i) = i := by
  rw [decode, decodeFields_encode h, encodeWord1_aluCode, Instr.ofAluCode_aluCode]

/-! ## The encoded words as numbers (R83) -/

/-- The field on the left of a concatenation counts in units of the right one's range. -/
theorem toNat_append_eq_mul_add {m n : Nat} (x : BitVec m) (y : BitVec n) :
    (x ++ y).toNat = x.toNat * 2 ^ n + y.toNat := by
  rw [BitVec.toNat_append, ← Nat.shiftLeft_add_eq_or_of_lt y.isLt, Nat.shiftLeft_eq]

theorem encodeWord1_toNat (i : Instr) :
    (encodeWord1 i).toNat = i.fields.source.code.toNat * 4096 + i.fields.dest.code.toNat * 256 +
      (if i.fields.increment then 128 else 0) + i.fields.effect.code.toNat * 16 + i.aluCode.toNat := by
  have hbit : (BitVec.ofBool i.fields.increment).toNat * 128 = if i.fields.increment then 128 else 0 := by
    cases i.fields.increment <;> rfl
  simp only [encodeWord1, toNat_append_eq_mul_add, ← hbit]
  omega

theorem encodeWord2_toNat (i : Instr) :
    (encodeWord2 i).toNat =
      if i.fields.dest.isMem then i.fields.offset.toNat * 4096 + i.fields.imm.toNat % 4096
      else i.fields.imm.toNat := by
  cases hd : i.fields.dest.isMem with
  | true => rw [encodeWord2_of_mem hd, toNat_append_eq_mul_add]; simp
  | false => rw [encodeWord2_of_not_mem hd]; rfl

/-! ## The obligations -/

/-- Settles O1: the two words as numbers are the concatenations read in base 2, and well-formedness is what lets the
decoder extend the immediate and fill in the offset as they were. -/
theorem decodeOfEncodeIsTheInstruction : Obligations.DecodeOfEncodeIsTheInstruction :=
  fun i h => ⟨encodeWord1_toNat i, encodeWord2_toNat i, decode_encode h⟩

/-- Settles O3: each code table inverts the one that the decoder looks the field up in, so a decoded operand has the
bits it was decoded from as its code. -/
theorem fieldsOfWordOne : Obligations.FieldsOfWordOne := by
  intro word1 word2
  rw [decode_fields]
  exact ⟨Source.code_ofCode _, Dest.code_ofCode _, rfl, Effect.code_ofCode _, decode_aluCode word1 word2⟩

/-- Settles O4: both extensions of the 12-bit field keep its bits, so the class of the source does not matter. -/
theorem fieldsOfWordTwo : Obligations.FieldsOfWordTwo := by
  rintro word1 word2 f rfl
  rw [decode_fields]
  exact ⟨fun hd => ⟨decodeOffset_of_mem word2 hd, decodeImm_fits _ _ word2 hd⟩,
    fun hd => decodeImm_of_not_mem _ word2 hd⟩

/-- The memory-class destination codes as numbers (R74). -/
theorem Dest.isMem_ofCode_iff_mem : ∀ c : BitVec 4,
    (Dest.ofCode c).isMem = true ↔ c.toNat ∈ [1, 2, 3, 9, 10, 11] := by decide

/-- Settles O5: source and destination have the same predicate in the bits of the code. -/
theorem memoryClassCodes : Obligations.MemoryClassCodes := by
  intro c
  refine ⟨?_, Dest.isMem_ofCode_iff_mem c, ?_⟩
  · rw [Source.isMem_ofCode, Dest.isMem_ofCode]
  · simp [Dest.isMem_ofCode]

end Sys2Proof
end

section
/-! The results of the instructions: an instruction outside the reserved combination completes with its ALU's answer
(41_execute.md R126 to R132), and COPY's answer (42_alu.md R146). -/

namespace Sys2Proof.Machine

open Sys2Proof

/-- Outside the reserved combination an instruction completes with what its ALU operation answers on the operand values
and the flags and overflow register before it. -/
theorem exec_eq_completed {i : Instr} (s : State) (h : i.fields.reserved = false) :
    exec i s = .next (s.completed i (s.aluOut i).result (s.aluOut i).flags (s.aluOut i).oflow) :=
  (exec_eq i s).trans (if_neg (by simp [h]))

/-- COPY's ALU answer: the source value, with the flags and the overflow register passed through (42_alu.md R146). -/
theorem State.aluOut_copy (s : State) (f : Fields) :
    s.aluOut (.copy f) = { result := s.srcValue f, flags := s.core.flags, oflow := s.core.oflow } := rfl

/-- Settles O9: completion with the ALU's answer, which COPY takes from its source value and the old flags and overflow
register. -/
theorem copyCompletes : Obligations.CopyCompletes := by
  intro f s h
  refine ⟨rfl, ?_⟩
  have completes := exec_eq_completed (i := .copy f) s h
  rwa [s.aluOut_copy f] at completes

end Sys2Proof.Machine
end

section
/-! The gate and what it drops: whom it lets in, and that no read or write passes it for anybody else but the claim
(43_device_bus.md R171). -/

namespace Sys2Proof.Machine

open Sys2Proof

/-! ## Whom the gates let in -/

theorem Node.admitsInit_iff {n : Node} {src : Word} {draw : Nat} :
    n.admitsInit src draw = true ↔
      n.dev.initDevice ≠ 0 ∧ src = n.dev.initDevice ∧ n.halted draw = true := by
  simp only [Node.admitsInit, Bool.and_eq_true, bne_iff_ne, beq_iff_eq, and_assoc]

theorem Node.admits_iff {n : Node} {src : Word} {draw : Nat} :
    n.admits src draw = true ↔
      src = n.id ∨ (n.dev.initDevice ≠ 0 ∧ src = n.dev.initDevice ∧ n.halted draw = true) := by
  rw [Node.admits, Bool.or_eq_true, beq_iff_eq, Node.admitsInit_iff]

/-- The stricter gate of the introspection slots lets in nobody but a foreign issuer that the gate lets in (R179). -/
theorem Node.admitsIntrospection_iff {n : Node} {src : Word} {draw : Nat} :
    n.admitsIntrospection src draw = true ↔ src ≠ n.id ∧ n.admits src draw = true := by
  rw [Node.admitsIntrospection, Bool.and_eq_true, bne_iff_ne]
  exact and_congr_right fun foreign => by rw [Node.admits_foreign foreign]

/-- Whom the gate drops, the stricter gate drops too. -/
theorem Node.admitsIntrospection_of_dropped {n : Node} {src : Word} {draw : Nat}
    (dropped : n.admits src draw = false) : n.admitsIntrospection src draw = false :=
  Bool.eq_false_iff.2 fun h => Bool.eq_false_iff.1 dropped (Node.admitsIntrospection_iff.1 h).2

/-! ## What a dropped access does -/

/-- The slots of a processor from 6 up have the stricter gate; all others have the gate itself. -/
theorem Node.ctlRead_of_dropped {n : Node} {src : Word} {draw : Nat} (dropped : n.admits src draw = false)
    (slot : BitVec 4) : n.ctlRead src slot draw = 0 := by
  have dropped' := Node.admitsIntrospection_of_dropped dropped
  unfold Node.ctlRead
  cases n.kind with
  | processor c => simp [dropped, dropped']
  | leaf k => simp [dropped]

theorem Node.blockRead_of_dropped {n : Node} {src : Word} {draw : Nat} (dropped : n.admits src draw = false)
    (w : Byte) : n.blockRead src w draw = 0 :=
  if_neg (by simp [dropped])

/-- Of all that a control write can do, only the claim (R174) needs no gate. -/
theorem Node.ctlWrite_of_dropped {n : Node} {src : Word} {draw : Nat} (dropped : n.admits src draw = false)
    {slot : BitVec 4} (v : Word) (h2 : slot ≠ 2) : n.ctlWrite src slot v draw = n := by
  rcases n.ctlWrite_cases src slot v draw with unchanged | ⟨_, claim, -⟩ | ⟨admitted, -⟩ | ⟨_, -, admitted, -⟩
  · exact unchanged
  · exact absurd claim h2
  · simp [dropped] at admitted
  · simp [Node.admitsIntrospection_of_dropped dropped] at admitted

theorem Node.blockWrite_of_dropped {n : Node} {src : Word} {draw : Nat} (dropped : n.admits src draw = false)
    (w : Byte) (v : Word) : n.blockWrite src w v draw = n := by
  rcases n.blockWrite_cases src w v draw with unchanged | ⟨admitted, -⟩
  · exact unchanged
  · simp [dropped] at admitted

/-- Settles O39: every access but the claim asks the gate or the stricter one inside it. -/
theorem gateDropsOtherAccesses : Obligations.GateDropsOtherAccesses :=
  fun _ _ _ => ⟨Node.admits_iff, fun dropped => ⟨Node.ctlRead_of_dropped dropped, Node.blockRead_of_dropped dropped,
    fun _ => Node.ctlWrite_of_dropped dropped, Node.blockWrite_of_dropped dropped⟩⟩

end Sys2Proof.Machine
end

section
/-! What an instruction leaves in each part of the state, part by part: the ALU's latch and the retirement do not touch
what a destination write does outside the registers (41_execute.md R128 to R134, R137). -/

namespace Sys2Proof.Machine

open Sys2Proof

/-! ## The latch and a destination write -/

@[simp] theorem State.dstAddr_latch (s : State) (F O : Word) (f : Fields) (r : Reg) :
    (s.latch F O).dstAddr f r = s.dstAddr f r :=
  State.dstAddr_congr (by simp) f r

@[simp] theorem State.dstAddr_afterReads (s : State) (f g : Fields) (r : Reg) :
    (s.afterReads g).dstAddr f r = s.dstAddr f r :=
  State.dstAddr_congr (by simp) f r

theorem State.updateAt_latch (s : State) (F O : Word) (index : Byte) (g : Node → Node) :
    (s.latch F O).updateAt index g = (s.updateAt index g).latch F O := by
  have hid : (s.latch F O).connectedId index = s.connectedId index := rfl
  unfold State.updateAt
  rw [hid]
  cases s.connectedId index with
  | none => rfl
  | some id =>
    dsimp only [State.latch_others]
    cases findNode id s.others <;> rfl

/-- A banked write takes nothing from the registers of its issuer (20_memory.md R49). -/
theorem State.busWrite_latch (s : State) (F O a v : Word) :
    (s.latch F O).busWrite a v = (s.busWrite a v).latch F O := by
  cases h : busTarget a with
  | own slot => rw [State.busWrite_own v h, State.busWrite_own v h]; rfl
  | control index slot => simp only [State.busWrite, h]; exact s.updateAt_latch F O index _
  | block index w => simp only [State.busWrite, h]; exact s.updateAt_latch F O index _

theorem State.pointerWrite_latch (s : State) (F O : Word) (r : Reg) (a v : Word) :
    (s.latch F O).pointerWrite r a v = (s.pointerWrite r a v).latch F O := by
  cases h : r.isLocal with
  | true => rw [State.pointerWrite_local h, State.pointerWrite_local h]; rfl
  | false => rw [State.pointerWrite_bus h, State.pointerWrite_bus h, State.busWrite_latch]

/-- Outside the registers a destination write after the ALU's latch does what it does before it. -/
theorem State.dstWrite_latch (s : State) (F O : Word) (f : Fields) (v : Word) :
    ((s.latch F O).dstWrite f v).dev = (s.dstWrite f v).dev ∧
    ((s.latch F O).dstWrite f v).others = (s.dstWrite f v).others := by
  cases hm : f.dest.isMem with
  | false =>
    obtain ⟨others, -, dev⟩ := (s.latch F O).dstWrite_of_not_mem f v hm
    obtain ⟨others', -, dev'⟩ := s.dstWrite_of_not_mem f v hm
    exact ⟨dev.trans dev'.symm, others.trans others'.symm⟩
  | true =>
    obtain ⟨r, hr⟩ := Dest.isMem_eq_true.1 hm
    obtain ⟨dev, others, -⟩ := (s.latch F O).dstWrite_mem f v r hr
    obtain ⟨dev', others', -⟩ := s.dstWrite_mem f v r hr
    simp [dev, dev', others, others', State.pointerWrite_latch]

/-! ## The parts of the state after an instruction -/

theorem State.finish_dev (s : State) (f : Fields) (out : AluOut) :
    (s.finish f out).dev =
      if (s.latch out.flags out.oflow).stores f then (s.dstWrite f out.result).dev else s.dev := by
  simp only [State.finish]
  split_ifs <;> simp [State.dstWrite_latch]

theorem State.finish_others (s : State) (f : Fields) (out : AluOut) :
    (s.finish f out).others =
      if (s.latch out.flags out.oflow).stores f then (s.dstWrite f out.result).others else s.others := by
  simp only [State.finish]
  split_ifs <;> simp [State.dstWrite_latch]

theorem State.finish_pc (s : State) (f : Fields) (out : AluOut) :
    (s.finish f out).core.pc =
      if (s.latch out.flags out.oflow).stores f = true ∧ f.dest = .pc then out.result else s.core.next := by
  simp only [State.finish]
  split_ifs <;> simp_all [State.dstWrite_next]

theorem State.finish_oflow (s : State) (f : Fields) (out : AluOut) : (s.finish f out).core.oflow = out.oflow := by
  simp only [State.finish]
  split_ifs <;> simp

theorem State.finish_flags (s : State) (f : Fields) (out : AluOut) :
    (s.finish f out).core.flags =
      if (s.latch out.flags out.oflow).stores f = true ∧ (f.dest = .flags ∨ f.dest = .flags4) then out.result
      else out.flags := by
  simp only [State.finish]
  split_ifs <;> simp_all [State.dstWrite_flags]

/-- The general registers after a store: the result in the destination register, 1 off the pointer of a push, then 1 on
the pointer of a pop (R130, R133, R134). -/
theorem State.finish_reg_of_stores {s : State} {f : Fields} {out : AluOut}
    (h : (s.latch out.flags out.oflow).stores f = true) (q : Reg) :
    (s.finish f out).core.reg q =
      (if f.dest = .reg q then out.result
        else if f.dest = .mem q ∧ f.push = true then s.core.reg q - 1
        else s.core.reg q) +
      (if f.pop = true ∧ f.source = .mem q then 1 else 0) := by
  rw [State.finish_reg, if_pos h, State.popAdjust_reg, State.dstWrite_reg, State.latch_core_reg]
  by_cases hp : f.source = .mem q ∧ f.pop = true
  · rw [if_pos hp, if_pos (And.symm hp)]
  · have hp' : ¬(f.pop = true ∧ f.source = .mem q) := fun h' => hp (And.symm h')
    rw [if_neg hp, if_neg hp']
    exact (BitVec.add_zero _).symm

theorem State.isSelfJump_iff {s : State} {f : Fields} {r : Word} :
    s.isSelfJump f r = true ↔ f.source = .pc ∧ f.dest = .pc ∧ r = s.core.pc := by
  simp [State.isSelfJump, and_assoc]

/-- The run state after an instruction: a stored self-jump halts, with the local word at `R[1]` as the code (R131). No
store precedes the read of the code, since the destination is the pc. -/
theorem State.finish_run (s : State) (f : Fields) (out : AluOut) :
    (s.finish f out).core.run =
      if (s.latch out.flags out.oflow).stores f = true ∧ s.isSelfJump f out.result = true then
        .halted (s.dev.load s.core.r1)
      else s.core.run := by
  cases hs : (s.latch out.flags out.oflow).stores f with
  | false => rw [State.finish_discard s f out hs, if_neg (by simp)]; rfl
  | true =>
    rw [State.finish_commit s f out hs]
    cases hj : s.isSelfJump f out.result with
    | false => simp
    | true =>
      obtain ⟨hsrc, hdst, -⟩ := State.isSelfJump_iff.1 hj
      have kept : ((s.latch out.flags out.oflow).dstWrite f out.result).dev = s.dev := by simp [State.dstWrite, hdst]
      have hr1 : s.core.reg .r1 = s.core.r1 := rfl
      simp [State.popAdjust_reg, State.dstWrite_reg, hsrc, hdst, kept, hr1]

/-! ## Where an instruction writes outside the registers -/

/-- Everything an instruction can do outside the registers: nothing; its `ih`; one local store; one banked write. -/
theorem State.finish_outside_cases (s : State) (f : Fields) (out : AluOut) :
    ((s.finish f out).dev = s.dev ∧ (s.finish f out).others = s.others) ∨
    (f.dest = .ih ∧ (s.finish f out).dev = { s.dev with handler := out.result } ∧
      (s.finish f out).others = s.others) ∨
    (∃ r, f.dest = .mem r ∧ r.isLocal = true ∧ (s.finish f out).dev = s.dev.store (s.dstAddr f r) out.result ∧
      (s.finish f out).others = s.others) ∨
    (∃ r, f.dest = .mem r ∧ r.isLocal = false ∧
      (s.finish f out).dev = (s.busWrite (s.dstAddr f r) out.result).dev ∧
      (s.finish f out).others = (s.busWrite (s.dstAddr f r) out.result).others) := by
  rw [State.finish_dev, State.finish_others]
  split
  case isFalse => exact .inl ⟨rfl, rfl⟩
  case isTrue =>
    cases hm : f.dest.isMem with
    | false =>
      obtain ⟨others, -, dev⟩ := s.dstWrite_of_not_mem f out.result hm
      by_cases hi : f.dest = .ih
      · exact .inr (.inl ⟨hi, dev.trans (if_pos hi), others⟩)
      · exact .inl ⟨dev.trans (if_neg hi), others⟩
    | true =>
      obtain ⟨r, hr⟩ := Dest.isMem_eq_true.1 hm
      obtain ⟨dev, others, -⟩ := s.dstWrite_mem f out.result r hr
      cases hl : r.isLocal with
      | true =>
        rw [State.pointerWrite_local hl] at dev others
        exact .inr (.inr (.inl ⟨r, hr, hl, dev, others⟩))
      | false =>
        rw [State.pointerWrite_bus hl] at dev others
        exact .inr (.inr (.inr ⟨r, hr, hl, dev, others⟩))

end Sys2Proof.Machine
end

section
/-! What a step can make of each device of the system, said once (20_memory.md R59, 43_device_bus.md R171 to R182), and
the invariants that follow: the system's own (10_state.md R33), read-only words and parameters (10_state.md R20, R22),
halted processors (10_state.md R18), and processors that run (60_exceptions.md R215). -/

namespace Sys2Proof.Machine

open Sys2Proof

/-! ## The changes of a device -/

/-- Everything a step of the processor with the turn can make of a device: nothing; a control write or a block write to
it; for that processor itself, the instruction executed. -/
inductive State.Change (s : State) : Node → Node → Prop where
  | kept (n : Node) : s.Change n n
  | control (n : Node) (slot : BitVec 4) (v : Word) (draw : Nat) :
    s.Change n (n.ctlWrite s.dev.params.id slot v draw)
  | block (n : Node) (w : Byte) (v : Word) (draw : Nat) : s.Change n (n.blockWrite s.dev.params.id w v draw)
  | executed {i : Instr} {u : State} (running : s.core.run = .running) (done : exec i s = .next u) :
    s.Change s.selfNode u.selfNode

/-- Everything an instruction does outside the registers of its processor. -/
theorem exec_outside_cases {i : Instr} {s t : State} (h : exec i s = .next t) :
    (t.dev = s.dev ∧ t.others = s.others) ∨
    (i.fields.dest = .ih ∧ (∃ v, t.dev = { s.dev with handler := v }) ∧ t.others = s.others) ∨
    (∃ r v, i.fields.dest = .mem r ∧ r.isLocal = true ∧ t.dev = s.dev.store (s.dstAddr i.fields r) v ∧
      t.others = s.others) ∨
    (∃ r v, i.fields.dest = .mem r ∧ r.isLocal = false ∧
      t.dev = ((s.afterReads i.fields).busWrite (s.dstAddr i.fields r) v).dev ∧
      t.others = ((s.afterReads i.fields).busWrite (s.dstAddr i.fields r) v).others) := by
  obtain ⟨-, rfl⟩ := exec_next h
  rcases (s.afterReads i.fields).finish_outside_cases i.fields (s.aluOut i) with
    ⟨dev, others⟩ | ⟨ih, dev, others⟩ | ⟨r, dest, loc, dev, others⟩ | ⟨r, dest, bus, dev, others⟩
  · exact .inl ⟨by simpa using dev, by simpa using others⟩
  · exact .inr (.inl ⟨ih, ⟨_, by simpa using dev⟩, by simpa using others⟩)
  · exact .inr (.inr (.inl ⟨r, _, dest, loc, by simpa using dev, by simpa using others⟩))
  · exact .inr (.inr (.inr ⟨r, _, dest, bus, by simpa using dev, by simpa using others⟩))

theorem exec_params {i : Instr} {s t : State} (h : exec i s = .next t) : t.dev.params = s.dev.params := by
  obtain ⟨-, rfl⟩ := exec_next h
  simpa using ((s.afterReads i.fields).finish_params i.fields (s.aluOut i)).1

/-- An instruction leaves the local memory of its processor as it is or does one local store. -/
theorem exec_mem {i : Instr} {s t : State} (h : exec i s = .next t) :
    t.dev.mem = s.dev.mem ∨ ∃ a v, t.dev.mem = (s.dev.store a v).mem := by
  rcases exec_outside_cases h with ⟨dev, -⟩ | ⟨-, ⟨v, dev⟩, -⟩ | ⟨r, v, -, -, dev, -⟩ | ⟨r, v, -, -, dev, -⟩
  · exact .inl (by rw [dev])
  · exact .inl (by rw [dev])
  · exact .inr ⟨_, v, by rw [dev]⟩
  · exact .inl (by rw [dev, State.busWrite_mem, State.afterReads_dev])

/-- An instruction changes no device but its processor's own, or one other, by a control or block write. -/
theorem exec_others {i : Instr} {s t : State} (h : exec i s = .next t) :
    t.others = s.others ∨ ∃ id f, (∀ n, s.Change n (f n)) ∧ t.others = updateNode id f s.others := by
  rcases exec_outside_cases h with ⟨-, others⟩ | ⟨-, -, others⟩ | ⟨_, _, -, -, -, others⟩ | ⟨r, v, -, -, -, others⟩
  · exact .inl others
  · exact .inl others
  · exact .inl others
  · rcases (s.afterReads i.fields).busWrite_cases (s.dstAddr i.fields r) v with
      e | ⟨_, -, e⟩ | ⟨_, slot, id, _, -, -, -, e⟩ | ⟨_, w, id, _, -, -, -, e⟩
    · exact .inl (by simpa [e] using others)
    · exact .inl (by simpa [e] using others)
    · rw [e] at others
      simp only [State.afterReads_dev, State.afterReads_others] at others
      exact .inr ⟨id, _, fun n => .control n slot v _, others⟩
    · rw [e] at others
      simp only [State.afterReads_dev, State.afterReads_others] at others
      exact .inr ⟨id, _, fun n => .block n w v _, others⟩

/-! ## What every change keeps -/

theorem State.Change.params {s : State} {n n' : Node} (h : s.Change n n') : n'.dev.params = n.dev.params := by
  cases h with
  | kept => rfl
  | control _ slot v draw => simp
  | block _ w v draw => simp
  | executed _ done => exact exec_params done

theorem State.Change.id {s : State} {n n' : Node} (h : s.Change n n') : n'.id = n.id :=
  congrArg DeviceParams.id h.params

theorem State.Change.mem {s : State} {n n' : Node} (h : s.Change n n') :
    n'.dev.mem = n.dev.mem ∨ ∃ a v, n'.dev.mem = (n.dev.store a v).mem := by
  cases h with
  | kept => exact .inl rfl
  | control _ slot v draw => exact .inl (by simp)
  | block _ w v draw =>
    rcases n.blockWrite_cases s.dev.params.id w v draw with e | ⟨-, e⟩
    · exact .inl (by rw [e])
    · exact .inr ⟨_, _, by rw [e]⟩
  | executed _ done => exact exec_mem done

/-- A word below `romEnd` survives every change (decision D26). -/
theorem State.Change.rom {s : State} {n n' : Node} (h : s.Change n n') {k : Nat} (hk : k < n.dev.params.romEnd) :
    n'.dev.mem.read k = n.dev.mem.read k := by
  rcases h.mem with e | ⟨a, v, e⟩
  · rw [e]
  · rw [e, Device.store_rom _ _ _ hk]

theorem State.Change.legal {s : State} {n n' : Node} (h : s.Change n n') (legal : n.Legal) : n'.Legal where
  id_ne_zero := h.id ▸ legal.id_ne_zero
  width := h.params ▸ legal.width
  rom := h.params ▸ legal.rom
  index_ne_zero := h.params ▸ legal.index_ne_zero
  not_itself := by rw [h.params, h.id]; exact legal.not_itself

theorem State.Change.sound {s : State} {n n' : Node} (h : s.Change n n') (sound : n.dev.Sound) : n'.dev.Sound := by
  have size : n'.dev.memSize = n.dev.memSize := by simp [Device.memSize, h.params]
  rcases h.mem with e | ⟨a, v, e⟩
  · exact ⟨by rw [e]; exact sound.canonical, by rw [e, size]; exact sound.inside⟩
  · exact ⟨by rw [e]; exact Device.store_wf _ a v sound.canonical, by
      rw [e, size, ← Device.store_memSize n.dev a v]; exact Device.store_inside _ a v sound.inside⟩

/-- What a control write makes of a processor's registers: nothing, or an introspection write by an admitted issuer. -/
theorem Node.ctlWrite_processor {n : Node} {c : Core} (hk : n.kind = .processor c) (src : Word) (slot : BitVec 4)
    (v : Word) (draw : Nat) :
    (n.ctlWrite src slot v draw).kind = .processor c ∨
    (n.ctlWrite src slot v draw).kind = .processor (c.slotWrite slot v) := by
  rcases n.ctlWrite_cases src slot v draw with e | ⟨_, -, -, e⟩ | ⟨-, e⟩ | ⟨c', hk', -, e⟩
  · exact .inl (by rw [e, hk])
  · exact .inl (by rw [e]; exact hk)
  · exact .inl (by rw [e]; exact hk)
  · obtain rfl : c' = c := by simpa [hk] using hk'.symm
    exact .inr (by rw [e])

theorem Node.ctlWrite_leaf {n : Node} {k : LeafKind} (hk : n.kind = .leaf k) (src : Word) (slot : BitVec 4)
    (v : Word) (draw : Nat) : (n.ctlWrite src slot v draw).kind = .leaf k := by
  rcases n.ctlWrite_cases src slot v draw with e | ⟨_, -, -, e⟩ | ⟨-, e⟩ | ⟨c, hk', -, -⟩
  · rw [e, hk]
  · rw [e]; exact hk
  · rw [e]; exact hk
  · simp [hk] at hk'

theorem Node.processorSound_of_processor {n : Node} {c : Core} (hk : n.kind = .processor c) :
    n.ProcessorSound ↔ c.next = c.pc + 2 ∧ n.dev.params.addressWidth ≠ 0 := by
  simp [Node.ProcessorSound, hk]

theorem Node.processorSound_of_leaf {n : Node} {k : LeafKind} (hk : n.kind = .leaf k) : n.ProcessorSound := by
  simp [Node.ProcessorSound, hk]

theorem State.Change.processorSound {s : State} {n n' : Node} (h : s.Change n n') (sound : n.ProcessorSound) :
    n'.ProcessorSound := by
  have params := h.params
  cases h with
  | kept => exact sound
  | control _ slot v draw =>
    cases hk : n.kind with
    | leaf k => exact Node.processorSound_of_leaf (Node.ctlWrite_leaf hk _ _ _ _)
    | processor c =>
      obtain ⟨next, width⟩ := (Node.processorSound_of_processor hk).1 sound
      rcases Node.ctlWrite_processor hk s.dev.params.id slot v draw with e | e
      · exact (Node.processorSound_of_processor e).2 ⟨next, by rwa [params]⟩
      · exact (Node.processorSound_of_processor e).2 ⟨c.slotWrite_next slot v next, by rwa [params]⟩
  | block _ w v draw =>
    simpa only [Node.ProcessorSound, Node.blockWrite_kind, Node.blockWrite_params] using sound
  | executed _ done =>
    obtain ⟨-, width⟩ := (Node.processorSound_of_processor rfl).1 sound
    refine (Node.processorSound_of_processor rfl).2 ⟨?_, by rwa [params]⟩
    obtain ⟨-, rfl⟩ := exec_next done
    exact State.finish_next _ _ _

/-! ## A step changes each device once, and rearranges them -/

theorem forall₂_updateNode {R : Node → Node → Prop} (refl : ∀ n, R n n) {f : Node → Node} (hf : ∀ n, R n (f n))
    (id : Word) : ∀ ns : List Node, List.Forall₂ R ns (updateNode id f ns)
  | [] => .nil
  | n :: ns => by
    simp only [updateNode]
    split_ifs
    · exact .cons (hf n) (List.forall₂_same.2 fun m _ => refl m)
    · exact .cons (refl n) (forall₂_updateNode refl hf id ns)

theorem exec_nodes {i : Instr} {s t : State} (running : s.core.run = .running) (h : exec i s = .next t) :
    List.Forall₂ s.Change s.nodes t.nodes := by
  refine .cons (.executed running h) ?_
  rcases exec_others h with e | ⟨id, f, hf, e⟩
  · rw [e]; exact List.forall₂_same.2 fun n _ => .kept n
  · rw [e]; exact forall₂_updateNode .kept hf id _

/-- Everything `step` can do when it answers a next state. -/
theorem step_next_cases {s t : State} (h : step s = .next t) :
    (s.core.run = .running ∧ ∃ u, exec s.fetched s = .next u ∧ t = u.handOver) ∨
    (∃ code, s.core.run = .halted code ∧ s.others.any Node.isRunning = true ∧ t = s.tick.handOver) := by
  unfold step at h
  cases hr : s.core.run with
  | running =>
    rw [hr] at h
    cases he : exec s.fetched s <;> simp only [he] at h <;> cases h
    exact .inl ⟨rfl, _, rfl, rfl⟩
  | halted code =>
    rw [hr] at h
    dsimp only at h
    split_ifs at h with ha
    cases h
    exact .inr ⟨code, rfl, ha, rfl⟩

theorem step_nodes {s t : State} (h : step s = .next t) :
    ∃ ns, List.Forall₂ s.Change s.nodes ns ∧ List.Perm t.nodes ns := by
  rcases step_next_cases h with ⟨running, u, hu, rfl⟩ | ⟨code, -, -, rfl⟩
  · exact ⟨u.nodes, exec_nodes running hu, u.handOver_perm⟩
  · exact ⟨s.nodes, List.forall₂_same.2 fun n _ => .kept n, s.tick.handOver_perm⟩

theorem map_id_of_changes {s : State} {ns ms : List Node} (h : List.Forall₂ s.Change ns ms) :
    ms.map Node.id = ns.map Node.id := by
  induction h with
  | nil => rfl
  | cons hc _ ih => simp [hc.id, ih]

theorem findNode_of_changes {s : State} {ns ms : List Node} (h : List.Forall₂ s.Change ns ms) {id : Word} {n : Node}
    (hn : findNode id ns = some n) : ∃ n', findNode id ms = some n' ∧ s.Change n n' := by
  induction h with
  | nil => simp [findNode] at hn
  | @cons a b _ _ hc _ ih =>
    simp only [findNode, hc.id] at hn ⊢
    split_ifs at hn ⊢ with hid
    · cases hn; exact ⟨b, rfl, hc⟩
    · exact ih hn

/-- Under the invariant a step keeps every id at its device, changed in one of the ways of `State.Change`. -/
theorem step_node {s t : State} {id : Word} {n : Node} (inv : s.Inv) (h : step s = .next t)
    (hn : s.node id = some n) : ∃ n', t.node id = some n' ∧ s.Change n n' := by
  obtain ⟨ns, changes, perm⟩ := step_nodes h
  obtain ⟨n', hn', change⟩ := findNode_of_changes changes hn
  refine ⟨n', ?_, change⟩
  have unique : (ns.map Node.id).Nodup := by rw [map_id_of_changes changes]; exact inv.unique
  rw [State.node, findNode_perm perm unique, hn']

/-- Each device after a step is a changed device from before it. -/
theorem exists_change_of_mem {s : State} {ns ms : List Node} (h : List.Forall₂ s.Change ns ms) {m : Node}
    (hm : m ∈ ms) : ∃ n ∈ ns, s.Change n m := by
  induction h with
  | nil => simp at hm
  | cons hc _ ih =>
    rcases List.mem_cons.1 hm with rfl | hm
    · exact ⟨_, List.mem_cons_self, hc⟩
    · obtain ⟨n, hn, hc'⟩ := ih hm
      exact ⟨n, List.mem_cons_of_mem _ hn, hc'⟩

/-! ## The obligations -/

/-- Settles O51: each clause of the invariant speaks of one device and survives every change of it; the changes keep the
ids, and the turn only rearranges the devices. -/
theorem stepKeepsTheInvariant : Obligations.StepKeepsTheInvariant := by
  intro s t inv h
  obtain ⟨ns, changes, perm⟩ := step_nodes h
  have source : ∀ m ∈ t.nodes, ∃ n ∈ s.nodes, s.Change n m := fun m hm =>
    exists_change_of_mem changes (perm.mem_iff.1 hm)
  refine ⟨fun m hm => ?_, fun m hm => ?_, fun m hm => ?_, ?_⟩
  · obtain ⟨n, hn, change⟩ := source m hm
    exact change.legal (inv.legal n hn)
  · obtain ⟨n, hn, change⟩ := source m hm
    exact change.sound (inv.sound n hn)
  · obtain ⟨n, hn, change⟩ := source m hm
    exact change.processorSound (inv.processors n hn)
  · rw [(perm.map Node.id).nodup_iff, map_id_of_changes changes]
    exact inv.unique

/-- Settles O54: no change of a device touches its parameters or a word below its `romEnd`. -/
theorem romAndParametersAreConstant : Obligations.RomAndParametersAreConstant := by
  intro s t id n inv h hn
  obtain ⟨n', hn', change⟩ := step_node inv h hn
  exact ⟨n', hn', change.params, fun k => change.rom⟩

/-- Settles O55: only the processor with the turn executes, which a halted one does not, and the introspection slots
hold neither the run state nor the flags nor the overflow register. -/
theorem haltedProcessorsStayHalted : Obligations.HaltedProcessorsStayHalted := by
  intro s t id n c code inv h hn hk halted
  obtain ⟨n', hn', change⟩ := step_node inv h hn
  suffices hc : ∃ c', n'.kind = .processor c' ∧ c'.run = .halted code ∧ c'.flags = c.flags ∧ c'.oflow = c.oflow by
    obtain ⟨c', kept⟩ := hc
    exact ⟨n', c', hn', kept⟩
  cases change with
  | kept => exact ⟨c, hk, halted, rfl, rfl⟩
  | control _ slot v draw =>
    rcases Node.ctlWrite_processor hk s.dev.params.id slot v draw with e | e
    · exact ⟨c, e, halted, rfl, rfl⟩
    · exact ⟨_, e, by simpa using halted, by simp, by simp⟩
  | block _ w v draw => exact ⟨c, by simpa using hk, halted, rfl, rfl⟩
  | executed running _ =>
    obtain rfl : s.core = c := by simpa [State.selfNode] using hk
    rw [running] at halted
    cases halted

theorem Node.halted_of_processor {n : Node} {c : Core} (hk : n.kind = .processor c) (draw : Nat) :
    n.halted draw = c.run.isHalted := by
  simp [Node.halted, hk]

/-- A device that is not halted lets in its owner alone. -/
theorem Node.admits_of_not_halted {n : Node} {src : Word} {draw : Nat} (foreign : src ≠ n.id)
    (running : n.halted draw = false) : n.admits src draw = false := by
  rw [Node.admits_foreign foreign, Node.admitsInit, running, Bool.and_false]

/-- A foreign write to slot 2 of a device that is not halted does nothing but claim it (R174, R175). -/
theorem Node.claimWrite_of_not_halted {n : Node} {src : Word} {draw : Nat} (foreign : src ≠ n.id)
    (running : n.halted draw = false) (v : Word) :
    n.claimWrite src v draw = n ∨
    (n.dev.initDevice = 0 ∧ n.claimWrite src v draw = { n with dev := { n.dev with initDevice := src } }) := by
  by_cases h0 : n.dev.initDevice = 0
  · exact .inr ⟨h0, by simp [Node.claimWrite, foreign, h0]⟩
  · refine .inl ?_
    rw [Node.claimWrite, if_neg (by simpa using fun _ => h0), if_neg (by simp [running])]

/-- Settles O56: a processor that runs is not halted, so its gate drops every foreign access but the claim. -/
theorem runningProcessorsAreNotDisturbed : Obligations.RunningProcessorsAreNotDisturbed := by
  intro s t id n c inv h other hn hk running
  obtain ⟨n', hn', change⟩ := step_node inv h hn
  obtain rfl : n.id = id := (findNode_id hn).1
  have foreign : s.dev.params.id ≠ n.id := other.symm
  have active : ∀ draw, n.halted draw = false := fun draw => by
    rw [Node.halted_of_processor hk, running]; rfl
  cases change with
  | kept => exact .inl hn'
  | control _ slot v draw =>
    by_cases h2 : slot = 2
    · rw [Node.ctlWrite, if_pos h2] at hn'
      rcases Node.claimWrite_of_not_halted foreign (active draw) v with e | ⟨unclaimed, e⟩
      · exact .inl (by rw [hn', e])
      · exact .inr ⟨unclaimed, by rw [hn', e]⟩
    · rw [Node.ctlWrite_of_dropped (Node.admits_of_not_halted foreign (active draw)) v h2] at hn'
      exact .inl hn'
  | block _ w v draw =>
    rw [Node.blockWrite_of_dropped (Node.admits_of_not_halted foreign (active draw))] at hn'
    exact .inl hn'
  | executed _ _ => exact absurd rfl other

end Sys2Proof.Machine
end

section
/-! Noninterference at the gate (43_device_bus.md R171, 60_exceptions.md R202): an operation on a system commutes with
the exchange of a device that another has claimed, up through a whole step. -/

namespace Sys2Proof.Machine

open Sys2Proof

/-! ## A device closed to an issuer -/

/-- The device is another than `src` and claimed by another than `src`: the gate drops every access of `src`. -/
structure Node.ClosedTo (n : Node) (src : Word) : Prop where
  foreign : src ≠ n.id
  claimed : n.dev.initDevice ≠ 0
  stranger : src ≠ n.dev.initDevice

theorem Node.ClosedTo.dropped {n : Node} {src : Word} (h : n.ClosedTo src) (draw : Nat) :
    n.admits src draw = false := by
  rw [Node.admits_foreign h.foreign, Node.admitsInit, beq_eq_false_iff_ne.2 h.stranger, Bool.and_false,
    Bool.false_and]

theorem Node.ClosedTo.ctlRead {n : Node} {src : Word} (h : n.ClosedTo src) (slot : BitVec 4) (draw : Nat) :
    n.ctlRead src slot draw = 0 := Node.ctlRead_of_dropped (h.dropped draw) slot

theorem Node.ClosedTo.blockRead {n : Node} {src : Word} (h : n.ClosedTo src) (w : Byte) (draw : Nat) :
    n.blockRead src w draw = 0 := Node.blockRead_of_dropped (h.dropped draw) w

/-- Claimed already, it does not take even the claim. -/
theorem Node.ClosedTo.ctlWrite {n : Node} {src : Word} (h : n.ClosedTo src) (slot : BitVec 4) (v : Word)
    (draw : Nat) : n.ctlWrite src slot v draw = n := by
  by_cases h2 : slot = 2
  · rw [Node.ctlWrite, if_pos h2, Node.claimWrite, if_neg (by simpa using fun _ => h.claimed),
      if_neg (by simpa using fun _ e => absurd e h.stranger)]
  · exact Node.ctlWrite_of_dropped (h.dropped draw) v h2

theorem Node.ClosedTo.blockWrite {n : Node} {src : Word} (h : n.ClosedTo src) (w : Byte) (v : Word) (draw : Nat) :
    n.blockWrite src w v draw = n := Node.blockWrite_of_dropped (h.dropped draw) w v

/-! ## A device exchanged -/

/-- The system with the device of an id exchanged for `m`. -/
def State.exchange (s : State) (id : Word) (m : Node) : State :=
  { s with others := updateNode id (fun _ => m) s.others }

@[simp] theorem State.exchange_dev (s : State) (id : Word) (m : Node) : (s.exchange id m).dev = s.dev := rfl
@[simp] theorem State.exchange_core (s : State) (id : Word) (m : Node) : (s.exchange id m).core = s.core := rfl
@[simp] theorem State.exchange_draws (s : State) (id : Word) (m : Node) : (s.exchange id m).draws = s.draws := rfl
@[simp] theorem State.exchange_others (s : State) (id : Word) (m : Node) :
    (s.exchange id m).others = updateNode id (fun _ => m) s.others := rfl
@[simp] theorem State.exchange_selfNode (s : State) (id : Word) (m : Node) :
    (s.exchange id m).selfNode = s.selfNode := rfl

/-- `n` is the device of the id among the others, and neither it nor `m`, which has the same id, lets the processor with
the turn in. -/
structure State.Hides (s : State) (id : Word) (n m : Node) : Prop where
  found : findNode id s.others = some n
  same_id : m.id = id
  closed : n.ClosedTo s.dev.params.id
  closed' : m.ClosedTo s.dev.params.id

/-- Hiding depends on the other devices and the processor's id alone. -/
theorem State.Hides.congr {s t : State} {id : Word} {n m : Node} (h : s.Hides id n m)
    (params : t.dev.params = s.dev.params) (others : t.others = s.others) : t.Hides id n m :=
  ⟨by rw [others]; exact h.found, h.same_id, by rw [params]; exact h.closed, by rw [params]; exact h.closed'⟩

theorem findNode_exchange {id : Word} {m : Node} (hm : m.id = id) (k : Word) (ns : List Node) :
    findNode k (updateNode id (fun _ => m) ns) =
      if k = id then (findNode k ns).map (fun _ => m) else findNode k ns := by
  induction ns with
  | nil => simp [updateNode, findNode]
  | cons a ns ih =>
    by_cases ha : a.id = id
    · by_cases hk : k = id
      · simp [updateNode, findNode, ha, hm, hk]
      · simp [updateNode, findNode, ha, hm, hk, Ne.symm hk]
    · by_cases hk : k = id
      · subst hk; simpa [updateNode, findNode, ha] using ih
      · by_cases hak : a.id = k
        · simp [updateNode, findNode, hak, hk]
        · simpa [updateNode, findNode, ha, hak, hk] using ih

/-- Changes of the devices of two ids can be done in either order. -/
theorem updateNode_comm {id k : Word} (hk : k ≠ id) {f g : Node → Node} (hf : ∀ n, n.id = id → (f n).id = id)
    (hg : ∀ n, (g n).id = n.id) :
    ∀ ns : List Node, updateNode k g (updateNode id f ns) = updateNode id f (updateNode k g ns)
  | [] => rfl
  | a :: ns => by
    by_cases ha : a.id = id
    · have hak : a.id ≠ k := fun e => hk (e.symm.trans ha)
      have hfk : (f a).id ≠ k := fun e => hk (e.symm.trans (hf a ha))
      simp only [updateNode, if_pos ha, if_neg hak, if_neg hfk]
    · by_cases hak : a.id = k
      · have hga : (g a).id ≠ id := by rw [hg]; exact ha
        simp only [updateNode, if_neg ha, if_pos hak, if_neg hga]
      · simp only [updateNode, if_neg ha, if_neg hak, updateNode_comm hk hf hg ns]

/-- A change that leaves the device of the id as it is changes nothing. -/
theorem updateNode_of_fixed {id : Word} {n : Node} {f : Node → Node} (hf : f n = n) :
    ∀ {ns : List Node}, findNode id ns = some n → updateNode id f ns = ns
  | [], h => by simp [findNode] at h
  | a :: ns, h => by
    simp only [findNode] at h
    split_ifs at h with ha
    · cases h; simp only [updateNode, if_pos ha, hf]
    · simp only [updateNode, if_neg ha, updateNode_of_fixed hf h]

theorem updateNode_updateNode {id : Word} {m : Node} (hm : m.id = id) {f : Node → Node} (hf : f m = m) :
    ∀ ns : List Node, updateNode id f (updateNode id (fun _ => m) ns) = updateNode id (fun _ => m) ns
  | [] => rfl
  | a :: ns => by
    by_cases ha : a.id = id
    · simp only [updateNode, if_pos ha, if_pos hm, hf]
    · simp only [updateNode, if_neg ha, updateNode_updateNode hm hf ns]

/-! ## Reads -/

section Hidden

variable {s : State} {id : Word} {n m : Node}

@[simp] theorem State.exchange_connectedId (index : Byte) :
    (s.exchange id m).connectedId index = s.connectedId index := rfl

/-- A hidden device is absent or present at an index as it was. -/
theorem State.Hides.deviceAt (h : s.Hides id n m) (index : Byte) :
    ((s.exchange id m).deviceAt index = s.deviceAt index) ∨
    (s.deviceAt index = some n ∧ (s.exchange id m).deviceAt index = some m) := by
  unfold State.deviceAt
  rw [State.exchange_connectedId]
  cases s.connectedId index with
  | none => exact .inl rfl
  | some k =>
    by_cases hk : k = id
    · subst hk
      exact .inr ⟨h.found, by simp [findNode_exchange h.same_id, h.found]⟩
    · exact .inl (by simp [findNode_exchange h.same_id, hk])

theorem State.Hides.busRead (h : s.Hides id n m) (a : Word) :
    (s.exchange id m).busRead a = ((s.busRead a).1, (s.busRead a).2.exchange id m) := by
  unfold State.busRead
  cases busTarget a with
  | own slot => rfl
  | control index slot =>
    rcases h.deviceAt index with e | ⟨hn, hm⟩
    · dsimp only
      rw [e]
      cases s.deviceAt index <;> rfl
    · simp only [hn, hm, State.exchange_dev, h.closed.ctlRead, h.closed'.ctlRead]
      rfl
  | block index w =>
    rcases h.deviceAt index with e | ⟨hn, hm⟩
    · dsimp only
      rw [e]
      cases s.deviceAt index <;> rfl
    · simp only [hn, hm, State.exchange_dev, h.closed.blockRead, h.closed'.blockRead]
      rfl

theorem State.Hides.pointerRead (h : s.Hides id n m) (r : Reg) (a : Word) :
    (s.exchange id m).pointerRead r a = ((s.pointerRead r a).1, (s.pointerRead r a).2.exchange id m) := by
  unfold State.pointerRead
  split_ifs
  · rfl
  · exact h.busRead a

theorem State.Hides.srcRead (h : s.Hides id n m) (f : Fields) :
    (s.exchange id m).srcRead f = ((s.srcRead f).1, (s.srcRead f).2.exchange id m) := by
  unfold State.srcRead
  cases f.source with
  | mem r => exact h.pointerRead r _
  | pc => rfl
  | imm => rfl
  | reg r => rfl
  | flags => rfl
  | ih => rfl

theorem State.Hides.dstRead (h : s.Hides id n m) (f : Fields) :
    (s.exchange id m).dstRead f = ((s.dstRead f).1, (s.dstRead f).2.exchange id m) := by
  unfold State.dstRead
  cases f.dest with
  | mem r => exact h.pointerRead r _
  | pc => rfl
  | flags4 => rfl
  | reg r => rfl
  | flags => rfl
  | ih => rfl

/-- Both operand values are those of the system before the exchange. -/
theorem State.Hides.readOperands (h : s.Hides id n m) (f : Fields) :
    (s.exchange id m).readOperands f =
      ((s.readOperands f).1, (s.readOperands f).2.1, (s.readOperands f).2.2.exchange id m) := by
  have after : (s.srcRead f).2.Hides id n m := h.congr (by simp) (by simp)
  simp only [State.readOperands, h.srcRead, after.dstRead]

/-! ## Writes -/

/-- A write that neither the device nor `m` lets in commutes with their exchange. -/
theorem State.Hides.updateAt (h : s.Hides id n m) (index : Byte) {f : Node → Node} (keepsId : ∀ k, (f k).id = k.id)
    (fixed : f n = n) (fixed' : f m = m) :
    (s.exchange id m).updateAt index f = (s.updateAt index f).exchange id m := by
  unfold State.updateAt
  rw [State.exchange_connectedId]
  cases s.connectedId index with
  | none => rfl
  | some k =>
    dsimp only [State.exchange_others]
    by_cases hk : k = id
    · subst hk
      simp only [findNode_exchange h.same_id, h.found, if_true, Option.map_some, State.exchange,
        updateNode_updateNode h.same_id fixed', updateNode_of_fixed fixed h.found]
    · simp only [findNode_exchange h.same_id, if_neg hk]
      cases findNode k s.others with
      | none => rfl
      | some _ => simp only [State.exchange, updateNode_comm hk (fun _ _ => h.same_id) keepsId]

theorem State.Hides.busWrite (h : s.Hides id n m) (a v : Word) :
    (s.exchange id m).busWrite a v = (s.busWrite a v).exchange id m := by
  cases ht : busTarget a with
  | own slot => rw [State.busWrite_own v ht, State.busWrite_own v ht]; rfl
  | control index slot =>
    simp only [State.busWrite, ht]
    exact h.updateAt index (fun k => by simp) (h.closed.ctlWrite slot v _) (h.closed'.ctlWrite slot v _)
  | block index w =>
    simp only [State.busWrite, ht]
    exact h.updateAt index (fun k => by simp) (h.closed.blockWrite w v _) (h.closed'.blockWrite w v _)

theorem State.Hides.pointerWrite (h : s.Hides id n m) (r : Reg) (a v : Word) :
    (s.exchange id m).pointerWrite r a v = (s.pointerWrite r a v).exchange id m := by
  unfold State.pointerWrite
  split_ifs
  · rfl
  · exact h.busWrite a v

theorem State.Hides.dstWrite (h : s.Hides id n m) (f : Fields) (v : Word) :
    (s.exchange id m).dstWrite f v = (s.dstWrite f v).exchange id m := by
  unfold State.dstWrite
  cases f.dest with
  | mem r =>
    have haddr : (s.exchange id m).dstAddr f r = s.dstAddr f r := State.dstAddr_congr (fun _ => rfl) f r
    dsimp only
    rw [haddr, h.pointerWrite r _ v]
    split_ifs <;> rfl
  | pc => rfl
  | flags4 => rfl
  | reg r => rfl
  | flags => rfl
  | ih => rfl

end Hidden

theorem State.exchange_popAdjust (s : State) (id : Word) (m : Node) (f : Fields) :
    (s.exchange id m).popAdjust f = (s.popAdjust f).exchange id m := by
  unfold State.popAdjust
  cases f.source with
  | mem r => dsimp only; split_ifs <;> rfl
  | pc => rfl
  | imm => rfl
  | reg r => rfl
  | flags => rfl
  | ih => rfl

/-! ## An instruction -/

theorem State.Hides.finish {s : State} {id : Word} {n m : Node} (h : s.Hides id n m) (f : Fields) (out : AluOut) :
    (s.exchange id m).finish f out = (s.finish f out).exchange id m := by
  have latched : (s.latch out.flags out.oflow).Hides id n m := h.congr rfl rfl
  have latch : (s.exchange id m).latch out.flags out.oflow = (s.latch out.flags out.oflow).exchange id m := rfl
  cases hs : (s.latch out.flags out.oflow).stores f with
  | false => rw [(s.exchange id m).finish_discard f out hs, s.finish_discard f out hs]; rfl
  | true =>
    rw [(s.exchange id m).finish_commit f out hs, s.finish_commit f out hs, latch, latched.dstWrite,
      State.exchange_popAdjust]
    have jump : (s.exchange id m).isSelfJump f out.result = s.isSelfJump f out.result := rfl
    dsimp only
    rw [jump]
    split_ifs <;> rfl

theorem State.Hides.exec {s t : State} {id : Word} {n m : Node} (h : s.Hides id n m) {i : Instr}
    (done : exec i s = .next t) : exec i (s.exchange id m) = .next (t.exchange id m) := by
  obtain ⟨legal, rfl⟩ := exec_next done
  have read : (s.afterReads i.fields).Hides id n m := h.congr (by simp) (by simp)
  have hafter : (s.exchange id m).afterReads i.fields = (s.afterReads i.fields).exchange id m := by
    simp only [State.afterReads, h.readOperands]
  have hout : (s.exchange id m).aluOut i = s.aluOut i := by
    simp only [State.aluOut, State.srcValue, State.dstValue, h.readOperands, State.exchange_core]
  rw [exec_eq, if_neg (by simp [legal]), hafter, hout, read.finish]

/-- Of the changes that a step makes none is left for a device closed to the processor with the turn. -/
theorem State.Change.of_closed {s : State} {n n' : Node} (h : s.Change n n') (closed : n.ClosedTo s.dev.params.id) :
    n' = n := by
  cases h with
  | kept => rfl
  | control _ slot v draw => exact closed.ctlWrite slot v draw
  | block _ w v draw => exact closed.blockWrite w v draw
  | executed _ _ => exact absurd rfl closed.foreign

/-- A hidden device is hidden after an instruction. -/
theorem State.Hides.of_exec {s t : State} {id : Word} {n m : Node} (h : s.Hides id n m) {i : Instr}
    (done : Machine.exec i s = .next t) : t.Hides id n m := by
  refine ⟨?_, h.same_id, by rw [exec_params done]; exact h.closed, by rw [exec_params done]; exact h.closed'⟩
  rcases exec_others done with e | ⟨k, f, hf, e⟩
  · rw [e]; exact h.found
  · rw [e, findNode_updateNode k id f fun a => (hf a).id, h.found, Option.map_some, (hf n).of_closed h.closed,
      ite_self]

/-! ## The turn -/

/-- A device that is no running processor is passed over. -/
theorem swapIn_cons_of_not_running {a : Node} (ha : a.isRunning = false) (p : Node → Bool) (me : Node)
    (ns : List Node) :
    swapIn p me (a :: ns) = (swapIn p me ns).map (fun t => (t.1, t.2.1, a :: t.2.2)) := by
  cases hk : a.kind with
  | leaf k => simp only [swapIn, hk]
  | processor c => simp [swapIn, hk, ha]

theorem swapIn_exchange {id : Word} {n m me : Node} (hm : m.id = id) (hme : me.id ≠ id)
    (idle : n.isRunning = false) (idle' : m.isRunning = false) (p : Node → Bool) :
    ∀ {ns : List Node}, findNode id ns = some n →
      swapIn p me (updateNode id (fun _ => m) ns) =
        (swapIn p me ns).map (fun t => (t.1, t.2.1, updateNode id (fun _ => m) t.2.2))
  | [], h => by simp [findNode] at h
  | a :: ns, h => by
    by_cases ha : a.id = id
    · obtain rfl : a = n := by simpa [findNode, ha] using h
      simp only [updateNode, if_pos ha, swapIn_cons_of_not_running idle, swapIn_cons_of_not_running idle',
        Option.map_map]
      congr 1
      funext t
      simp [updateNode, ha]
    · have found : findNode id ns = some n := by simpa [findNode, ha] using h
      have ih := swapIn_exchange hm hme idle idle' p found
      have tail : ((swapIn p me (updateNode id (fun _ => m) ns)).map fun t => (t.1, t.2.1, a :: t.2.2)) =
          ((swapIn p me ns).map fun t => (t.1, t.2.1, a :: t.2.2)).map
            fun t => (t.1, t.2.1, updateNode id (fun _ => m) t.2.2) := by
        rw [ih, Option.map_map, Option.map_map]
        congr 1
        funext t
        simp [updateNode, ha]
      simp only [updateNode, if_neg ha, swapIn]
      cases a.kind with
      | leaf k => exact tail
      | processor c =>
        dsimp only
        split_ifs
        · simp [updateNode, hme]
        · exact tail

section Idle

variable {s : State} {id : Word} {n m : Node}

theorem State.Hides.giveTurn (h : s.Hides id n m) (idle : n.isRunning = false) (idle' : m.isRunning = false)
    (p : Node → Bool) : (s.exchange id m).giveTurn p = (s.giveTurn p).map (·.exchange id m) := by
  have hme : s.selfNode.id ≠ id := by
    rw [← h.same_id]; exact h.closed'.foreign
  simp only [State.giveTurn, State.exchange_selfNode, State.exchange_others,
    swapIn_exchange h.same_id hme idle idle' p h.found]
  cases swapIn p s.selfNode s.others <;> rfl

theorem State.Hides.handOver (h : s.Hides id n m) (idle : n.isRunning = false) (idle' : m.isRunning = false) :
    (s.exchange id m).handOver = s.handOver.exchange id m := by
  simp only [State.handOver, h.giveTurn idle idle', State.exchange_draws, State.exchange_core]
  cases s.giveTurn (fun n => n.id == Config.nextProcessor s.draws) with
  | some t => rfl
  | none =>
    cases s.core.run with
    | running => rfl
    | halted code =>
      dsimp only [Option.map_none]
      cases s.giveTurn (fun _ => true) <;> rfl

theorem any_isRunning_exchange (idle : n.isRunning = false) (idle' : m.isRunning = false) :
    ∀ {ns : List Node}, findNode id ns = some n →
      (updateNode id (fun _ => m) ns).any Node.isRunning = ns.any Node.isRunning
  | [], h => by simp [findNode] at h
  | a :: ns, h => by
    by_cases ha : a.id = id
    · obtain rfl : a = n := by simpa [findNode, ha] using h
      simp only [updateNode, if_pos ha, List.any_cons, idle, idle']
    · have found : findNode id ns = some n := by simpa [findNode, ha] using h
      simp only [updateNode, if_neg ha, List.any_cons, any_isRunning_exchange idle idle' found]

theorem State.Hides.step {t : State} (h : s.Hides id n m) (idle : n.isRunning = false) (idle' : m.isRunning = false)
    (done : step s = .next t) : step (s.exchange id m) = .next (t.exchange id m) := by
  rcases step_next_cases done with ⟨running, u, hu, rfl⟩ | ⟨code, halted, any, rfl⟩
  · have fetched : (s.exchange id m).fetched = s.fetched := rfl
    simp only [Machine.step, State.exchange_core, running, fetched, h.exec hu, (h.of_exec hu).handOver idle idle']
  · have ticked : s.tick.Hides id n m := h.congr rfl rfl
    have tick : (s.exchange id m).tick = s.tick.exchange id m := rfl
    simp only [Machine.step, State.exchange_core, halted, State.exchange_others,
      any_isRunning_exchange idle idle' h.found, any, if_true, tick, ticked.handOver idle idle']

end Idle

/-- Settles O57: the gate answers the same for both devices, 0 and no change, so every operation of an instruction
commutes with their exchange; and a device that is no running processor is passed over when the turn is handed on. -/
theorem claimedDevicesAreOpaqueToOthers : Obligations.ClaimedDevicesAreOpaqueToOthers := by
  intro s t id n m found same_id other claimed stranger claimed' stranger'
  obtain rfl : n.id = id := (findNode_id found).1
  have hidden : s.Hides n.id n m :=
    ⟨found, same_id, ⟨other.symm, claimed, stranger.symm⟩, ⟨same_id ▸ other.symm, claimed', stranger'.symm⟩⟩
  exact ⟨fun i done => hidden.exec done, fun idle idle' done => hidden.step idle idle' done⟩

end Sys2Proof.Machine
end

section
/-! Encoding undoes decoding, and what the fields of a decoded pair are as numbers (30_encoding.md R71 to R76, R80,
R81). -/

namespace Sys2Proof

theorem decodeFields_imm (word1 word2 : Word) : (decodeFields word1 word2).imm =
    decodeImm (decodeFields word1 word2).source (decodeFields word1 word2).dest word2 := rfl

theorem decodeFields_offset (word1 word2 : Word) :
    (decodeFields word1 word2).offset = decodeOffset (decodeFields word1 word2).dest word2 := rfl

/-! ## Encoding undoes decoding (R80) -/

/-- The fields of word 1, put side by side again. -/
theorem append_word1_fields (w : Word) :
    w.extractLsb' 12 4 ++ w.extractLsb' 8 4 ++ BitVec.ofBool (w.getLsbD 7) ++ w.extractLsb' 4 3 ++
      w.extractLsb' 0 4 = w := by
  ext k hk
  simp only [BitVec.getElem_append, BitVec.getElem_extractLsb', BitVec.getElem_ofBool]
  split_ifs <;> simp only [← BitVec.getLsbD_eq_getElem] <;> congr 1 <;> omega

theorem encodeWord1_decode (word1 word2 : Word) : encodeWord1 (decode word1 word2) = word1 := by
  have fields := append_word1_fields word1
  rwa [encodeWord1, decode_fields, decode_aluCode, decodeFields, Source.code_ofCode, Dest.code_ofCode,
    Effect.code_ofCode]

theorem encodeWord2_decode (word1 word2 : Word) : encodeWord2 (decode word1 word2) = word2 := by
  cases hd : (decodeFields word1 word2).dest.isMem with
  | true =>
    rw [encodeWord2_of_mem (by rwa [decode_fields]), decode_fields]
    calc (decodeFields word1 word2).offset ++ (decodeFields word1 word2).imm.extractLsb' 0 12
        = word2.extractLsb' 12 4 ++ word2.extractLsb' 0 12 := by
          rw [decodeFields_offset, decodeOffset_of_mem word2 hd, decodeFields_imm, decodeImm_fits _ _ word2 hd]
      _ = word2 := append_extract word2
  | false =>
    rw [encodeWord2_of_not_mem (by rwa [decode_fields]), decode_fields]
    exact decodeImm_of_not_mem _ word2 hd

/-- A decoded immediate is an extension of its 12 low bits, and a decoded offset stands only at a memory destination. -/
theorem decode_wellFormed (word1 word2 : Word) : (decode word1 word2).WellFormed := by
  rw [Instr.WellFormed, decode_fields, Fields.wellFormed, Bool.and_eq_true]
  rw [Fields.immFits, Fields.offsetFits, decodeFields_imm, decodeFields_offset]
  cases hd : (decodeFields word1 word2).dest.isMem with
  | false => simp [decodeOffset_of_not_mem word2 hd]
  | true =>
    cases hs : (decodeFields word1 word2).source.isMem with
    | true => simp [decodeImm_of_mem_mem word2 hd hs, extract_setWidth]
    | false => simp [decodeImm_of_mem_not_mem word2 hd hs, extract_signExtend]

/-- Settles O2: the fields of word 1 tile it, and the two forms of word 2 are the two that the encoder writes. -/
theorem everyWordPairIsOneInstruction : Obligations.EveryWordPairIsOneInstruction := fun word1 word2 =>
  ⟨decode_wellFormed word1 word2, Prod.ext (encodeWord1_decode word1 word2) (encodeWord2_decode word1 word2)⟩

/-! ## The decoded fields as numbers (R75, R76) -/

theorem toNat_imm12 (w : Word) : (w.extractLsb' 0 12).toNat = w.toNat % 4096 := by
  simp [BitVec.extractLsb'_toNat]

theorem toNat_offset4 (w : Word) : (w.extractLsb' 12 4).toNat = w.toNat / 4096 := by
  have := w.isLt
  rw [BitVec.extractLsb'_toNat, Nat.shiftRight_eq_div_pow]
  omega

/-- Settles O6: zero extension keeps the unsigned value of the 12-bit field, sign extension the signed one. -/
theorem immediateAndOffsetOfWordTwo : Obligations.ImmediateAndOffsetOfWordTwo := by
  rintro word1 word2 f rfl
  rw [decode_fields]
  refine ⟨fun hd hs => ?_, fun hd hs => ?_, fun hd => decodeImm_of_not_mem _ word2 hd, fun hd => ?_, fun hd => ?_⟩
  · rw [decodeFields_imm, decodeImm_of_mem_mem word2 hd hs, BitVec.toNat_setWidth, toNat_imm12]
    omega
  · rw [decodeFields_imm, decodeImm_of_mem_not_mem word2 hd hs, BitVec.toInt_signExtend_of_le (by omega),
      BitVec.toInt_eq_toNat_cond, toNat_imm12]
    split_ifs <;> omega
  · rw [Fields.dstOff, if_pos hd, decodeFields_offset, decodeOffset_of_mem word2 hd,
      BitVec.toInt_signExtend_of_le (by omega), BitVec.toInt_eq_toNat_cond, toNat_offset4]
    split_ifs <;> omega
  · rw [Fields.dstOff, if_neg (by simp [hd])]

/-- Settles O7: the five words evaluate to the instructions listed. -/
theorem listedWordsDecode : Obligations.ListedWordsDecode := by
  unfold Obligations.ListedWordsDecode
  decide

end Sys2Proof

namespace Sys2Proof.Machine

open Sys2Proof

/-- `exec` refuses the reserved combination, and nothing else. -/
theorem exec_refused_iff {i : Instr} {s : State} {r : Refusal} :
    exec i s = .refused r ↔ r = .reservedIncrement ∧ i.fields.reserved = true := by
  rw [exec_eq]
  split_ifs with h <;> simp [h, eq_comm]

/-- No instruction faults (60_exceptions.md R200). -/
theorem exec_ne_fault (i : Instr) (s : State) (e : Fault) : exec i s ≠ .fault e := by
  rw [exec_eq]
  split_ifs <;> simp

/-- The bits of R74 in a code that stands at bit `i` of a word. -/
theorem not_isMem_bits (w : Word) (i : Nat) :
    (!(w.extractLsb' i 4).getLsbD 2 && ((w.extractLsb' i 4).extractLsb' 0 2 != 0)) = false ↔
      ¬(w.getLsbD (i + 2) = false ∧ w.extractLsb' i 2 ≠ 0) := by
  have high : (w.extractLsb' i 4).getLsbD 2 = w.getLsbD (i + 2) := by simp
  have low : (w.extractLsb' i 4).extractLsb' 0 2 = w.extractLsb' i 2 := by
    ext k hk
    simp [show k < 4 by omega]
  rw [high, low]
  cases w.getLsbD (i + 2) <;> simp

/-- Settles O8: `exec` refuses the reserved combination alone, whose three conditions are bits of word 1. -/
theorem onlyReservedWordsAreRefused : Obligations.OnlyReservedWordsAreRefused := by
  intro word1 word2 s r
  rw [exec_refused_iff, decode_fields, ← not_isMem_bits word1 8, ← not_isMem_bits word1 12, ← Dest.isMem_ofCode,
    ← Source.isMem_ofCode]
  simp [Fields.reserved, decodeFields, and_assoc]

end Sys2Proof.Machine
end

section
/-! The results of the fifteen instructions beside COPY: the flags that the three forms of an ALU answer leave
(42_alu.md R141 to R144), the words that an exact result is cut into (R163), and each operation's result in terms of
those. -/

namespace Sys2Proof.Machine

open Sys2Proof

/-! ## The flags of an ALU answer -/

theorem flagsAre_commonFlags (F r O' : Word) :
    FlagsAre (commonFlags F r O') F (r == 0) (r.getLsbD 15) (O'.getLsbD 0) (F.getLsbD 3) (F.getLsbD 4) where
  zero := by rw [commonFlags_getLsbD, if_pos rfl]
  negative := by rw [commonFlags_getLsbD, if_neg (by decide), if_pos rfl]
  carry := by rw [commonFlags_getLsbD, if_neg (by decide), if_neg (by decide), if_pos rfl]
  overflow := by rw [commonFlags_getLsbD, if_neg (by decide), if_neg (by decide), if_neg (by decide)]
  error := by rw [commonFlags_getLsbD, if_neg (by decide), if_neg (by decide), if_neg (by decide)]
  kept k hk := by
    rw [commonFlags_getLsbD, if_neg (by omega), if_neg (by omega), if_neg (by omega)]

/-- Writing V over flags that are already described. -/
theorem FlagsAre.putV {F' F : Word} {z n c v e : Bool} (h : FlagsAre F' F z n c v e) (v' : Bool) :
    FlagsAre (putBit F' Config.bitV v') F z n c v' e where
  zero := by rw [putBit_getLsbD _ (by decide), if_neg (by decide), h.zero]
  negative := by rw [putBit_getLsbD _ (by decide), if_neg (by decide), h.negative]
  carry := by rw [putBit_getLsbD _ (by decide), if_neg (by decide), h.carry]
  overflow := by rw [putBit_getLsbD _ (by decide), if_pos rfl]
  error := by rw [putBit_getLsbD _ (by decide), if_neg (by decide), h.error]
  kept k hk := by rw [putBit_getLsbD _ (by decide), if_neg (by simp only [Config.bitV]; omega), h.kept k hk]

/-- The common flag rule over flags whose E was written first, as DIV does it. -/
theorem flagsAre_commonFlags_putE (F r O' : Word) (e : Bool) :
    FlagsAre (commonFlags (putBit F Config.bitE e) r O') F (r == 0) (r.getLsbD 15) (O'.getLsbD 0) (F.getLsbD 3) e := by
  have h := flagsAre_commonFlags (putBit F Config.bitE e) r O'
  refine ⟨h.zero, h.negative, h.carry, ?_, ?_, fun k hk => ?_⟩
  · rw [h.overflow, putBit_getLsbD _ (by decide), if_neg (by decide)]
  · rw [h.error, putBit_getLsbD _ (by decide), if_pos rfl]
  · rw [h.kept k hk, putBit_getLsbD _ (by decide), if_neg (by simp only [Config.bitE]; omega)]

/-! ## Completion with an ALU answer of each form -/

section Completion

variable (i : Instr) {s : State}

theorem completesWith_of_flagsAre (h : i.fields.reserved = false) {v e : Bool}
    (flags : FlagsAre (s.aluOut i).flags s.core.flags ((s.aluOut i).result == 0) ((s.aluOut i).result.getLsbD 15)
      ((s.aluOut i).oflow.getLsbD 0) v e) :
    s.CompletesWith i (s.aluOut i).result (s.aluOut i).oflow v e :=
  ⟨_, flags, exec_eq_completed s h⟩

theorem completesPlain_of_plainOut (h : i.fields.reserved = false) {r : Word}
    (out : s.aluOut i = plainOut r s.core.flags s.core.oflow) : s.CompletesPlain i r := by
  have completes := completesWith_of_flagsAre i (s := s) (v := s.core.flags.getLsbD 3)
    (e := s.core.flags.getLsbD 4) h
  rw [out] at completes
  exact completes (flagsAre_commonFlags _ _ _)

theorem completesWith_of_wideOut (h : i.fields.reserved = false) {r O' : Word}
    (out : s.aluOut i = wideOut r O' s.core.flags) :
    s.CompletesWith i r O' (s.core.flags.getLsbD 3) (s.core.flags.getLsbD 4) := by
  have completes := completesWith_of_flagsAre i (s := s) (v := s.core.flags.getLsbD 3)
    (e := s.core.flags.getLsbD 4) h
  rw [out] at completes
  exact completes (flagsAre_commonFlags _ _ _)

theorem completesWith_of_wideOutV (h : i.fields.reserved = false) {r O' : Word} {v : Bool}
    (out : s.aluOut i = wideOutV r O' s.core.flags v) :
    s.CompletesWith i r O' v (s.core.flags.getLsbD 4) := by
  have completes := completesWith_of_flagsAre i (s := s) (v := v) (e := s.core.flags.getLsbD 4) h
  rw [out] at completes
  exact completes ((flagsAre_commonFlags _ _ _).putV v)

end Completion

/-! ## Logic, one-operand and bus-support operations -/

/-- Settles O10: each answers its bitwise result and keeps the overflow register. -/
theorem logicCompletes : Obligations.LogicCompletes := by
  rintro f s a b h rfl rfl
  exact ⟨rfl, rfl, rfl, completesPlain_of_plainOut (.and f) h rfl, completesPlain_of_plainOut (.or f) h rfl,
    completesPlain_of_plainOut (.xor f) h rfl⟩

theorem swap_eq_rotateLeft (a : Word) : a.extractLsb' 0 8 ++ a.extractLsb' 8 8 = a.rotateLeft 8 := by
  refine BitVec.eq_of_getLsbD_eq fun k hk => ?_
  rw [BitVec.getLsbD_append, BitVec.getLsbD_rotateLeft]
  by_cases h : k < 8
  · simp [h]
  · simp [h, show k < 16 from hk, show k - 8 < 8 by omega]

theorem highByte_eq_shift (a : Word) : a &&& (0xFF00 : Word) = (a >>> 8) <<< 8 := by
  ext k hk
  interval_cases k <;> simp

theorem lowByte_eq_ofNat (a : Word) : a &&& (0x00FF : Word) = BitVec.ofNat 16 (a.toNat % 256) := by
  have mask : a.toNat &&& 255 = a.toNat % 256 := Nat.and_two_pow_sub_one_eq_mod a.toNat 8
  apply BitVec.eq_of_toNat_eq
  rw [BitVec.toNat_and, BitVec.toNat_ofNat]
  exact mask.trans (by omega)

theorem highByte_eq_ofNat (a : Word) : a &&& (0xFF00 : Word) = BitVec.ofNat 16 (a.toNat / 256 * 256) := by
  rw [highByte_eq_shift]
  apply BitVec.eq_of_toNat_eq
  simp [BitVec.toNat_shiftLeft, BitVec.toNat_ushiftRight, Nat.shiftLeft_eq, Nat.shiftRight_eq_div_pow]

/-- Settles O11: the complement, the bytes exchanged and the two masks, in the terms of the statement. -/
theorem oneOperandCompletes : Obligations.OneOperandCompletes := by
  rintro f s a h rfl
  refine ⟨rfl, rfl, rfl, rfl, completesPlain_of_plainOut (.inv f) h ?_, completesPlain_of_plainOut (.swap f) h ?_,
    completesPlain_of_plainOut (.msb f) h ?_, completesPlain_of_plainOut (.lsb f) h ?_⟩
  · exact congrArg (plainOut · _ _) (BitVec.not_eq_neg_add _)
  · exact congrArg (plainOut · _ _) (swap_eq_rotateLeft _)
  · exact congrArg (plainOut · _ _) (highByte_eq_shift _)
  · exact congrArg (plainOut · _ _) (lowByte_eq_ofNat _)

/-- Settles O12: PAGE's mask clears the low byte; OAND reads the overflow register before the instruction. -/
theorem busSupportCompletes : Obligations.BusSupportCompletes := by
  rintro f s a h rfl
  refine ⟨rfl, rfl, completesPlain_of_plainOut (.page f) h ?_, completesPlain_of_plainOut (.oand f) h rfl⟩
  exact congrArg (plainOut · _ _) (highByte_eq_ofNat _)

/-! ## An exact result cut into two words (R163) -/

/-- The high and the low word of an integer, side by side, are the integer cut to 32 bits. -/
theorem append_ofInt (x : Int) : BitVec.ofInt 16 (x.fdiv 65536) ++ BitVec.ofInt 16 x = BitVec.ofInt 32 x := by
  apply BitVec.eq_of_toNat_eq
  rw [toNat_append_eq_mul_add, BitVec.toNat_ofInt, BitVec.toNat_ofInt, BitVec.toNat_ofInt,
    Int.fdiv_eq_ediv_of_nonneg _ (by decide)]
  omega

theorem append_ofNat (x : Nat) : BitVec.ofNat 16 (x / 65536) ++ BitVec.ofNat 16 x = BitVec.ofNat 32 x := by
  apply BitVec.eq_of_toNat_eq
  rw [toNat_append_eq_mul_add, BitVec.toNat_ofNat, BitVec.toNat_ofNat, BitVec.toNat_ofNat]
  omega

theorem toInt_ofInt_of_bounds {x : Int} (low : -2147483648 ≤ x) (high : x < 2147483648) :
    (BitVec.ofInt 32 x).toInt = x := by
  rw [BitVec.toInt_ofInt, Int.bmod_def]
  split_ifs <;> omega

/-! ## Shifts -/

/-- The bit above the low word of a left shift is the last that left it. -/
theorem carry_of_shiftLeft {r O' b : Word} {n : Nat} (h : O' ++ r = b.setWidth 32 <<< n) (one : 1 ≤ n)
    (sixteen : n ≤ 16) : O'.getLsbD 0 = b.getLsbD (16 - n) := by
  calc O'.getLsbD 0
      = (O' ++ r).getLsbD 16 := by rw [BitVec.getLsbD_append, if_neg (by decide)]
    _ = (b.setWidth 32).getLsbD (16 - n) := by
      rw [h, BitVec.getLsbD_shiftLeft]
      simp [show ¬16 < n by omega]
    _ = b.getLsbD (16 - n) := by simp [show 16 - n < 32 by omega]

/-- Settles O13: the two words of the product with a power of 2, of which the upper one's bit 0 is the carry. -/
theorem shlCompletes : Obligations.ShlCompletes := by
  rintro f s a b h rfl rfl
  have pair : BitVec.ofNat 16 ((s.dstValue f).toNat * 2 ^ (s.srcValue f).toNat / 65536) ++
      BitVec.ofNat 16 ((s.dstValue f).toNat * 2 ^ (s.srcValue f).toNat) =
      (s.dstValue f).setWidth 32 <<< (s.srcValue f).toNat := by
    rw [append_ofNat]
    apply BitVec.eq_of_toNat_eq
    rw [BitVec.toNat_ofNat, BitVec.toNat_shiftLeft, Nat.shiftLeft_eq, BitVec.toNat_setWidth_of_le (by decide)]
  exact ⟨rfl, _, _, completesWith_of_wideOut (.shl f) h rfl, pair, carry_of_shiftLeft pair⟩

/-- The word over sixteen zeros, as a signed and as an unsigned number. -/
theorem toInt_append_zero (b : Word) : (b ++ 0#16).toInt = b.toInt * 65536 := by
  rw [BitVec.toInt_append]
  simp [mul_comm]

theorem toNat_append_zero (b : Word) : (b ++ 0#16).toNat = b.toNat * 65536 := by
  rw [toNat_append_eq_mul_add]
  simp

theorem ofInt_fdiv_eq_sshiftRight (b : Word) (n : Nat) :
    BitVec.ofInt 32 ((b.toInt * 65536).fdiv (2 ^ n)) = (b ++ 0#16).sshiftRight n := by
  rw [BitVec.sshiftRight, toInt_append_zero, Int.shiftRight_eq_div_pow,
    Int.fdiv_eq_ediv_of_nonneg _ (by positivity), Nat.cast_pow, Nat.cast_ofNat]

theorem ofInt_fdiv_eq_ushiftRight (b : Word) (n : Nat) :
    BitVec.ofInt 32 (((b.toNat : Int) * 65536).fdiv (2 ^ n)) = (b ++ 0#16) >>> n := by
  have cast : ((b.toNat : Int) * 65536).fdiv (2 ^ n) = ((b.toNat * 65536 / 2 ^ n : Nat) : Int) := by
    rw [Int.fdiv_eq_ediv_of_nonneg _ (by positivity)]
    push_cast
    rfl
  rw [cast, BitVec.ofInt_natCast, ← toNat_append_zero, ← Nat.shiftRight_eq_div_pow, ← BitVec.toNat_ushiftRight,
    BitVec.ofNat_toNat, BitVec.setWidth_eq]

/-- Settles O14: the two words of the 32-bit window divided by a power of 2 with floor, in either mode. -/
theorem shrCompletes : Obligations.ShrCompletes := by
  rintro f s a b h rfl rfl
  refine ⟨rfl, _, _, completesWith_of_wideOut (.shr f) h rfl, ?_⟩
  rw [append_ofInt, signedMode]
  cases hs : s.core.flags.getLsbD Config.bitS with
  | true => exact ofInt_fdiv_eq_sshiftRight _ _
  | false => exact ofInt_fdiv_eq_ushiftRight _ _

/-! ## ADD, SUB, MUL -/

theorem ofNat_toNat_add (a b : Word) : BitVec.ofNat 16 (b.toNat + a.toNat) = b + a := by
  rw [BitVec.ofNat_add, BitVec.ofNat_toNat, BitVec.ofNat_toNat, BitVec.setWidth_eq, BitVec.setWidth_eq]

theorem addOverflow_eq (a b : Word) : addOverflow a b (b + a) = BitVec.saddOverflow b a := by
  rw [BitVec.saddOverflow_eq, addOverflow, BitVec.msb_eq_getLsbD_last, BitVec.msb_eq_getLsbD_last,
    BitVec.msb_eq_getLsbD_last]
  cases a.getLsbD 15 <;> cases b.getLsbD 15 <;> cases (b + a).getLsbD 15 <;> rfl

/-- Settles O15: the two words of the sum, and the sign rule for V. -/
theorem addCompletes : Obligations.AddCompletes := by
  rintro f s a b h rfl rfl
  set a := s.srcValue f
  set b := s.dstValue f
  have out : s.aluOut (.add f) =
      wideOutV (b + a) (BitVec.ofNat 16 ((b.toNat + a.toNat) / 65536)) s.core.flags (BitVec.saddOverflow b a) := by
    rw [← addOverflow_eq, ← ofNat_toNat_add]; rfl
  refine ⟨rfl, _, completesWith_of_wideOutV (.add f) h out, ?_⟩
  rw [← ofNat_toNat_add, append_ofNat, BitVec.toNat_ofNat]
  omega

theorem ofInt_toNat_sub (a b : Word) : BitVec.ofInt 16 ((b.toNat : Int) - (a.toNat : Int)) = b - a := by
  apply BitVec.eq_of_toNat_eq
  rw [BitVec.toNat_ofInt, BitVec.toNat_sub]
  omega

theorem subOverflow_eq (a b : Word) : subOverflow a b (b - a) = BitVec.ssubOverflow b a := by
  rw [BitVec.ssubOverflow_eq, subOverflow, BitVec.msb_eq_getLsbD_last, BitVec.msb_eq_getLsbD_last,
    BitVec.msb_eq_getLsbD_last]
  cases a.getLsbD 15 <;> cases b.getLsbD 15 <;> cases (b - a).getLsbD 15 <;> rfl

/-- Settles O16: the two words of the difference, and the sign rule for V (decision D35). -/
theorem subCompletes : Obligations.SubCompletes := by
  rintro f s a b h rfl rfl
  set a := s.srcValue f
  set b := s.dstValue f
  have out : s.aluOut (.sub f) = wideOutV (b - a) (BitVec.ofInt 16 (((b.toNat : Int) - (a.toNat : Int)).fdiv 65536))
      s.core.flags (BitVec.ssubOverflow b a) := by
    rw [← subOverflow_eq, ← ofInt_toNat_sub]; rfl
  refine ⟨rfl, _, completesWith_of_wideOutV (.sub f) h out, ?_⟩
  rw [← ofInt_toNat_sub, append_ofInt]
  exact toInt_ofInt_of_bounds (by omega) (by omega)

theorem ofInt_toNat_mul (a b : Word) : BitVec.ofInt 16 ((b.toNat : Int) * (a.toNat : Int)) = b * a := by
  rw [BitVec.ofInt_mul, BitVec.ofInt_natCast, BitVec.ofInt_natCast, BitVec.ofNat_toNat, BitVec.ofNat_toNat,
    BitVec.setWidth_eq, BitVec.setWidth_eq]

theorem ofInt_toInt_mul (a b : Word) : BitVec.ofInt 16 (b.toInt * a.toInt) = b * a := by
  rw [BitVec.ofInt_mul, BitVec.ofInt_toInt, BitVec.ofInt_toInt]

/-- The high word is the sign extension of the low one exactly where a 32-bit number fits in 16 bits. -/
theorem mulOverflow_signed {x : Int} (low : -2147483648 ≤ x) (high : x < 2147483648) :
    mulOverflow true (BitVec.ofInt 16 x) (BitVec.ofInt 16 (x.fdiv 65536)) =
      (decide (x ≥ 32768) || decide (x < -32768)) := by
  have sign : (BitVec.ofInt 16 x).getLsbD 15 = decide (32768 ≤ x % 65536) := by
    rw [show (BitVec.ofInt 16 x).getLsbD 15 = (BitVec.ofInt 16 x).msb from rfl, BitVec.msb_eq_decide,
      BitVec.toNat_ofInt, decide_eq_decide]
    omega
  have word : (BitVec.ofInt 16 (x.fdiv 65536)).toNat = (x / 65536 % 65536).toNat := by
    rw [BitVec.toNat_ofInt, Int.fdiv_eq_ediv_of_nonneg _ (by decide)]
    rfl
  rw [Bool.eq_iff_iff, mulOverflow, sign, Bool.true_and, bne_iff_ne, ne_eq, ← BitVec.toNat_inj, word]
  by_cases negative : 32768 ≤ x % 65536
  · simp [negative]
    omega
  · simp [negative]
    omega

theorem abs_toInt_le (a : Word) : |a.toInt| ≤ 32768 := by
  have high := BitVec.toInt_lt (x := a)
  have low := BitVec.le_toInt a
  exact abs_le.2 ⟨by omega, by omega⟩

theorem toInt_mul_bounds (a b : Word) : -2147483648 ≤ b.toInt * a.toInt ∧ b.toInt * a.toInt < 2147483648 := by
  have bound : |b.toInt * a.toInt| ≤ 32768 * 32768 := by
    rw [abs_mul]
    exact mul_le_mul (abs_toInt_le b) (abs_toInt_le a) (abs_nonneg _) (by decide)
  obtain ⟨low, high⟩ := abs_le.1 bound
  exact ⟨by omega, by omega⟩

theorem State.aluOut_mul (s : State) (f : Fields) (P : Int)
    (hP : P = if s.core.flags.getLsbD 5 then (s.dstValue f).toInt * (s.srcValue f).toInt
      else ((s.dstValue f).toNat : Int) * ((s.srcValue f).toNat : Int)) :
    s.aluOut (.mul f) = wideOutV (BitVec.ofInt 16 P) (BitVec.ofInt 16 (P.fdiv 65536)) s.core.flags
      (mulOverflow (s.core.flags.getLsbD 5) (BitVec.ofInt 16 P) (BitVec.ofInt 16 (P.fdiv 65536))) := by
  subst hP
  rfl

/-- Settles O17: the two words of the product of the mode's values; V compares the upper with the sign of the lower. -/
theorem mulCompletes : Obligations.MulCompletes := by
  rintro f s a b h rfl rfl
  refine ⟨rfl, fun unsigned => ?_, fun signed => ?_⟩
  · have mode : ¬s.core.flags.getLsbD 5 = true := by rw [unsigned]; decide
    have out := s.aluOut_mul f _ (if_neg mode).symm
    rw [ofInt_toNat_mul, unsigned] at out
    refine ⟨_, completesWith_of_wideOutV (.mul f) h out, ?_⟩
    have bound : (s.dstValue f).toNat * (s.srcValue f).toNat < 65536 * 65536 :=
      Nat.mul_lt_mul'' (s.dstValue f).isLt (s.srcValue f).isLt
    rw [← ofInt_toNat_mul, append_ofInt, ← Nat.cast_mul, BitVec.ofInt_natCast, BitVec.toNat_ofNat]
    omega
  · have out := s.aluOut_mul f _ (if_pos signed).symm
    obtain ⟨low, high⟩ := toInt_mul_bounds (s.srcValue f) (s.dstValue f)
    rw [signed, mulOverflow_signed low high, ofInt_toInt_mul] at out
    refine ⟨_, completesWith_of_wideOutV (.mul f) h out, ?_⟩
    rw [← ofInt_toInt_mul, append_ofInt, toInt_ofInt_of_bounds low high]

/-! ## DIV -/

theorem completesWith_div {s : State} {f : Fields} (h : f.reserved = false) {r O' : Word} {e : Bool}
    (out : s.aluOut (.div f) =
      { result := r, flags := commonFlags (putBit s.core.flags Config.bitE e) r O', oflow := O' }) :
    s.CompletesWith (.div f) r O' (s.core.flags.getLsbD 3) e := by
  have completes := completesWith_of_flagsAre (.div f) (s := s) (v := s.core.flags.getLsbD 3) (e := e) h
  rw [out] at completes
  exact completes (flagsAre_commonFlags_putE _ _ _ _)

/-- Settles O19: the branch of a zero divisor. -/
theorem divByZeroCompletes : Obligations.DivByZeroCompletes := by
  intro f s h zero
  refine completesWith_div h ?_
  rw [State.aluOut, show (Instr.div f).fields = f from rfl, zero]
  rfl

/-- DIV's answer for a divisor that is not 0: quotient toward zero and remainder of the mode's values. -/
theorem State.aluOut_div (s : State) (f : Fields) (ne : s.srcValue f ≠ 0) (x y : Int)
    (hx : x = if s.core.flags.getLsbD 5 then (s.dstValue f).toInt else ((s.dstValue f).toNat : Int))
    (hy : y = if s.core.flags.getLsbD 5 then (s.srcValue f).toInt else ((s.srcValue f).toNat : Int)) :
    s.aluOut (.div f) = wideOut (BitVec.ofInt 16 (x.tdiv y)) (BitVec.ofInt 16 (x.tmod y))
      (putBit s.core.flags Config.bitE false) := by
  rw [Int.tmod_def, mul_comm, hx, hy]
  exact if_neg ne

/-- A remainder is smaller than its divisor, and a signed word holds every number smaller than one. -/
theorem toInt_ofInt_tmod (x : Int) {y : Word} (ne : y.toInt ≠ 0) :
    (BitVec.ofInt 16 (x.tmod y.toInt)).toInt = x.tmod y.toInt ∧ (x.tmod y.toInt).natAbs < y.toInt.natAbs := by
  have smaller : (x.tmod y.toInt).natAbs < y.toInt.natAbs := by
    rw [Int.natAbs_tmod]
    exact Nat.mod_lt _ (Int.natAbs_pos.2 ne)
  have high := BitVec.toInt_lt (x := y)
  have low := BitVec.le_toInt y
  refine ⟨?_, smaller⟩
  rw [BitVec.toInt_ofInt, Int.bmod_def]
  split_ifs <;> omega

/-- Settles O18: quotient toward zero and remainder of the mode's values, the remainder smaller than the divisor and so
within a word. -/
theorem divCompletes : Obligations.DivCompletes := by
  rintro f s a b h rfl rfl ne
  refine ⟨rfl, fun unsigned => ?_, fun signed => ?_⟩
  · have mode : ¬s.core.flags.getLsbD 5 = true := by rw [unsigned]; decide
    have out := s.aluOut_div f ne _ _ (if_neg mode).symm (if_neg mode).symm
    rw [← Int.ofNat_tdiv, ← Int.ofNat_tmod, BitVec.ofInt_natCast, BitVec.ofInt_natCast] at out
    refine ⟨_, _, completesWith_div h out, ?_⟩
    have positive : 0 < (s.srcValue f).toNat := Nat.pos_of_ne_zero fun zero => ne (BitVec.eq_of_toNat_eq zero)
    have quotient := Nat.div_le_self (s.dstValue f).toNat (s.srcValue f).toNat
    have remainder := Nat.mod_lt (s.dstValue f).toNat positive
    have dividend := (s.dstValue f).isLt
    have divisor := (s.srcValue f).isLt
    rw [BitVec.toNat_ofNat, BitVec.toNat_ofNat, Nat.mod_eq_of_lt (by omega), Nat.mod_eq_of_lt (by omega)]
    exact ⟨(Nat.div_add_mod' _ _).symm, remainder⟩
  · have out := s.aluOut_div f ne _ _ (if_pos signed).symm (if_pos signed).symm
    refine ⟨_, _, completesWith_div h out, ?_⟩
    have divisor : (s.srcValue f).toInt ≠ 0 := fun zero => ne (BitVec.eq_of_toInt_eq (by simpa using zero))
    obtain ⟨exactly, smaller⟩ := toInt_ofInt_tmod (s.dstValue f).toInt divisor
    rw [exactly]
    refine ⟨?_, smaller, ?_⟩
    · rw [mul_comm]
      exact (Int.mul_tdiv_add_tmod _ _).symm
    · by_cases divides : (s.srcValue f).toInt ∣ (s.dstValue f).toInt
      · exact .inl (Int.tmod_eq_zero_of_dvd divides)
      · exact .inr (by rw [Int.sign_tmod, if_neg divides])

end Sys2Proof.Machine
end

section
/-! The store decision, commit and discard (41_execute.md R129 to R138): what each effect decides, and where a stored
result lands, destination by destination. -/

namespace Sys2Proof

/-! ## The fields that the decision and the destination write look at -/

theorem Effect.eq_of_code {e e' : Effect} (h : e.code = e'.code) : e = e' := by
  rw [← Effect.ofCode_code e, h, Effect.ofCode_code]

theorem Fields.pop_of_mem {f : Fields} (h : f.dest.isMem = true) : f.pop = false := by
  simp [Fields.pop, h]

theorem Fields.push_of_mem {f : Fields} (h : f.dest.isMem = true) : f.push = f.increment := by
  simp [Fields.push, h]

end Sys2Proof

namespace Sys2Proof.Machine

open Sys2Proof

/-! ## The store decision -/

theorem State.stores_latch (s : State) (F O : Word) (f : Fields) :
    (s.latch F O).stores f = f.effect.stores F (Config.irqPending s.draws) := rfl

/-- Settles O20: an effect is known by its code, and the decision is on the flags that the ALU left. -/
theorem effectsDecideTheStore : Obligations.EffectsDecideTheStore := by
  rintro s t f out rfl
  rw [State.stores_latch]
  have decides : ∀ e : Effect, f.effect.code = e.code →
      f.effect.stores out.flags (Config.irqPending s.draws) = e.stores out.flags (Config.irqPending s.draws) :=
    fun e h => by rw [Effect.eq_of_code h]
  exact ⟨decides .onZero, decides .onNotZero, decides .onNegative, decides .never, decides .always,
    decides .onOverflow, decides .onError, decides .onInterrupt⟩

/-- A discarded instruction leaves everything but the latch and retires (R137). -/
theorem State.finish_discarded {s : State} {f : Fields} {out : AluOut}
    (h : (s.latch out.flags out.oflow).stores f = false) :
    (s.finish f out).dev = s.dev ∧ (s.finish f out).others = s.others ∧
    (∀ q, (s.finish f out).core.reg q = s.core.reg q) ∧ (s.finish f out).core.run = s.core.run ∧
    (s.finish f out).core.pc = s.core.next ∧ (s.finish f out).core.next = s.core.next + 2 := by
  rw [State.finish_discard s f out h]
  exact ⟨rfl, rfl, fun q => by simp, rfl, rfl, rfl⟩

/-- Settles O21: effect 3 never stores, so every instruction that has it is discarded. -/
theorem effectNeverIsAPureTest : Obligations.EffectNeverIsAPureTest := by
  refine ⟨fun s f out h => State.finish_discarded h, fun i s legal never => ?_⟩
  refine ⟨_, (exec_eq i s).trans (if_neg (by simp [legal])), ?_⟩
  have discarded := State.finish_discarded (s := s.afterReads i.fields) (f := i.fields) (out := s.aluOut i)
    (by rw [State.stores_latch, never, stores_never])
  simpa using discarded

/-! ## The effect is no part of what an instruction computes -/

/-- Two effects that decide alike finish alike. -/
theorem State.finish_effect (s : State) (f : Fields) (e : Effect) (out : AluOut)
    (h : (s.latch out.flags out.oflow).stores { f with effect := e } = (s.latch out.flags out.oflow).stores f) :
    s.finish { f with effect := e } out = s.finish f out := by
  simp only [State.finish, h]
  rfl

/-- The operand reads do not look at the effect, so two effects that decide alike after them execute alike. -/
theorem execute_effect (op : AluOp) (f : Fields) (e : Effect) (s : State)
    (alike : ∀ F O, ((s.afterReads f).latch F O).stores { f with effect := e } =
      ((s.afterReads f).latch F O).stores f) : execute op { f with effect := e } s = execute op f s :=
  congrArg (fun t => if f.reserved then (.refused .reservedIncrement : Host.Outcome State Fault Refusal) else .next t)
    ((s.afterReads f).finish_effect f e
      (op (s.srcValue f) (s.dstValue f) (s.afterReads f).core.flags (s.afterReads f).core.oflow) (alike _ _))

theorem aluOf_ofAluCode (c : BitVec 4) (f g : Fields) : aluOf (Instr.ofAluCode c f) = aluOf (Instr.ofAluCode c g) := by
  unfold Instr.ofAluCode
  split <;> rfl

/-- The instruction of an ALU code, by its fields alone. -/
theorem exec_ofAluCode (c : BitVec 4) (f g : Fields) (s : State) :
    exec (Instr.ofAluCode c f) s = execute (aluOf (Instr.ofAluCode c g)) f s := by
  rw [exec_eq_execute, Instr.fields_ofAluCode, aluOf_ofAluCode c f g]

/-- Settles O22: the draw of `irq_pending` after the reads is what effect 7 decides by, as effects 4 and 3 would; no
other effect looks at it. -/
theorem interruptOnlyDecidesTheStore : Obligations.InterruptOnlyDecidesTheStore := by
  intro c f s
  constructor
  · intro h
    set e : Effect := if Config.irqPending (s.afterReads f).draws then .always else .never with he
    rw [exec_ofAluCode c f f, exec_ofAluCode c { f with effect := e } f]
    refine (execute_effect _ f e s fun F O => ?_).symm
    rw [State.stores_latch, State.stores_latch, h, he]
    cases Config.irqPending (s.afterReads f).draws <;> rfl
  · intro h F
    cases he : f.effect <;> first | rfl | exact absurd he h

/-! ## Destination code 4 -/

/-- Settles O26: both codes read and write the flags, and neither is a memory operand or the pc. -/
theorem destinationFourIsFlags : Obligations.DestinationFourIsFlags := by
  intro c f s
  rw [exec_ofAluCode c { f with dest := .flags4 } f, exec_ofAluCode c { f with dest := .flags } f]
  rfl

/-! ## Where a stored result lands -/

section Stored

variable {s : State} {f : Fields} {out : AluOut}

/-- Where the destination is neither memory nor a register, a pop is all that changes a register. -/
theorem State.finish_reg_of_other_dest (stored : (s.latch out.flags out.oflow).stores f = true) (q : Reg)
    (notReg : f.dest ≠ .reg q) (notMem : f.dest ≠ .mem q) :
    (s.finish f out).core.reg q = s.core.reg q + (if f.pop = true ∧ f.source = .mem q then 1 else 0) := by
  rw [State.finish_reg_of_stores stored, if_neg notReg, if_neg fun h => notMem h.1]

/-- The pointer of a memory destination loses 1 with push (R133). -/
theorem State.finish_reg_of_mem_dest (stored : (s.latch out.flags out.oflow).stores f = true) {r : Reg}
    (dest : f.dest = .mem r) :
    (s.finish f out).core.reg r = s.core.reg r - (if f.increment then 1 else 0) := by
  have mem : f.dest.isMem = true := by rw [dest]; rfl
  rw [State.finish_reg_of_stores stored, Fields.pop_of_mem mem, Fields.push_of_mem mem, dest]
  cases f.increment <;> simp

theorem State.finish_pc_of_other_dest (notPc : f.dest ≠ .pc) : (s.finish f out).core.pc = s.core.next := by
  rw [State.finish_pc, if_neg fun h => notPc h.2]

/-- Only the pc is a destination of a halt. -/
theorem State.finish_run_of_other_dest (notPc : f.dest ≠ .pc) : (s.finish f out).core.run = s.core.run := by
  rw [State.finish_run, if_neg]
  rintro ⟨-, jump⟩
  exact notPc (State.isSelfJump_iff.1 jump).2.1

end Stored

/-- Settles O23: the destination write comes before the pop, which so adds to the result in its own register. -/
theorem registerDestinationLands : Obligations.RegisterDestinationLands := by
  intro s f out q dest stored
  refine ⟨?_, fun p hp => ?_, State.finish_pc_of_other_dest (by simp [dest])⟩
  · rw [State.finish_reg_of_stores stored, if_pos dest]
  · exact State.finish_reg_of_other_dest stored p (by simp [dest, Ne.symm hp]) (by simp [dest])

/-- Settles O24: the result is `next`, which retirement copies; the self-jump is decided on the result. -/
theorem pcDestinationJumpsOrHalts : Obligations.PcDestinationJumpsOrHalts := by
  intro s f out dest stored
  have pc : (s.finish f out).core.pc = out.result := by rw [State.finish_pc, if_pos ⟨stored, dest⟩]
  refine ⟨pc, by rw [State.finish_next, pc], fun p => ?_, ?_⟩
  · exact State.finish_reg_of_other_dest stored p (by simp [dest]) (by simp [dest])
  · rw [State.finish_run]
    simp only [stored, State.isSelfJump_iff, dest, true_and]

/-- Settles O25: neither destination is the pc or a general register, so the rest is retirement and the pop. -/
theorem flagsAndHandlerDestinationsLand : Obligations.FlagsAndHandlerDestinationsLand := by
  intro s f out stored
  refine ⟨fun dest => ?_, fun dest => ?_, fun dest => ?_⟩
  · rw [State.finish_flags, if_pos ⟨stored, dest⟩]
  · have dev : (s.finish f out).dev = { s.dev with handler := out.result } := by
      obtain ⟨-, -, written⟩ := s.dstWrite_of_not_mem f out.result (by rw [dest]; rfl)
      rw [State.finish_dev, if_pos stored, written, if_pos dest]
    exact ⟨by rw [dev], by rw [dev]; rfl⟩
  · have notPc : f.dest ≠ .pc := by rcases dest with h | h | h <;> simp [h]
    have notReg : ∀ p, f.dest ≠ .reg p := by rcases dest with h | h | h <;> simp [h]
    have notMem : ∀ p, f.dest ≠ .mem p := by rcases dest with h | h | h <;> simp [h]
    have pc : (s.finish f out).core.pc = s.core.next := State.finish_pc_of_other_dest notPc
    exact ⟨pc, by rw [State.finish_next, pc], State.finish_run_of_other_dest notPc,
      fun p => State.finish_reg_of_other_dest stored p (notReg p) (notMem p)⟩

/-! ## Memory destinations -/

/-- A local store is one memory write above the ROM region, or nothing. -/
theorem Device.load_store (d : Device) (a b v : Word) :
    (d.store a v).load b =
      if d.params.addressWidth ≠ 0 ∧ d.params.romEnd ≤ d.index a ∧ d.index b = d.index a then v else d.load b := by
  have width : (d.store a v).params.addressWidth = d.params.addressWidth := by rw [Device.store_params]
  by_cases h0 : d.params.addressWidth = 0
  · rw [if_neg (by simp [h0]), Device.load, Device.load, if_pos (width.trans h0), if_pos h0]
  · rw [Device.load, Device.load, if_neg (width ▸ h0), if_neg h0, Device.store_index]
    rcases d.store_cases a v with ⟨e, zero | rom⟩ | ⟨e, -, rom⟩
    · exact absurd zero h0
    · rw [e, if_neg (by omega)]
    · rw [e, Memory.read_write]
      simp only [h0, rom, ne_eq, not_false_eq_true, true_and]

/-- Settles O37: the equation of a load after a store. -/
theorem loadAfterStore : Obligations.LoadAfterStore := Device.load_store

/-- What a memory destination does outside the registers is the write through its pointer. -/
theorem State.finish_outside_of_mem_dest {s : State} {f : Fields} {out : AluOut} {r : Reg} (dest : f.dest = .mem r)
    (stored : (s.latch out.flags out.oflow).stores f = true) :
    (s.finish f out).dev = (s.pointerWrite r (s.dstAddr f r) out.result).dev ∧
    (s.finish f out).others = (s.pointerWrite r (s.dstAddr f r) out.result).others := by
  obtain ⟨dev, others, -⟩ := s.dstWrite_mem f out.result r dest
  rw [State.finish_dev, State.finish_others, if_pos stored, if_pos stored]
  exact ⟨dev, others⟩

/-- Settles O27: the write through R1 to R3 is a local store, which is read back above the ROM region. -/
theorem localDestinationLands : Obligations.LocalDestinationLands := by
  intro s f out r dest loc width stored
  have dev : (s.finish f out).dev = s.dev.store (s.dstAddr f r) out.result := by
    rw [(State.finish_outside_of_mem_dest dest stored).1, State.pointerWrite_local loc, State.storeLocal_dev]
  refine ⟨?_, State.finish_reg_of_mem_dest stored dest, State.finish_pc_of_other_dest (by simp [dest])⟩
  rw [dev, Device.load_store]
  split_ifs <;> first | rfl | omega

/-- A write through an index reaches the device of the id connected there, and no other (R49, R183). -/
theorem State.findNode_updateAt (s : State) (index : Byte) {g : Node → Node} (keepsId : ∀ n, (g n).id = n.id)
    (k : Word) :
    findNode k (s.updateAt index g).others =
      if s.connectedId index = some k then (findNode k s.others).map g else findNode k s.others := by
  unfold State.updateAt
  cases s.connectedId index with
  | none => simp
  | some id =>
    dsimp only
    cases found : findNode id s.others with
    | none =>
      split_ifs with h
      · cases h; simp [found]
      · rfl
    | some n =>
      simp only [findNode_updateNode id k g keepsId, Option.some_inj, eq_comm]

/-- The bus write to a connected device changes it as its control or block write says (R49). -/
theorem State.Connects.updateAt {s : State} {index : Byte} {n : Node} (h : s.Connects index n) {g : Node → Node}
    (keepsId : ∀ k, (g k).id = k.id) : findNode n.id (s.updateAt index g).others = some (g n) := by
  obtain ⟨connected, found, -⟩ := h.found
  rw [s.findNode_updateAt index keepsId, if_pos connected, found, Option.map_some]

/-- Settles O28: the write through R4 to R6 is the bus write, before the ALU's latch as after it. -/
theorem bankedDestinationLands : Obligations.BankedDestinationLands := by
  intro s f out r dest bus stored
  obtain ⟨dev, others⟩ := State.finish_outside_of_mem_dest dest stored
  rw [State.pointerWrite_bus bus] at dev others
  refine ⟨dev, others, fun index slot n target connects => ?_, fun index w n target connects => ?_,
    State.finish_reg_of_mem_dest stored dest, State.finish_pc_of_other_dest (by simp [dest])⟩
  · rw [others, State.busWrite, target]
    exact connects.updateAt fun k => by simp
  · rw [others, State.busWrite, target]
    exact connects.updateAt fun k => by simp

/-! ## COPY with push and with pop -/

/-- COPY with effect 4 stores its source value. -/
theorem exec_copy_always {f : Fields} (s : State) (legal : f.reserved = false) (always : f.effect = .always) :
    ∃ out, out.result = s.srcValue f ∧ ((s.afterReads f).latch out.flags out.oflow).stores f = true ∧
      exec (.copy f) s = .next ((s.afterReads f).finish f out) :=
  ⟨s.aluOut (.copy f), rfl, by rw [State.stores_latch, always, stores_always],
    (exec_eq (.copy f) s).trans (if_neg (by simp [Instr.fields, legal]))⟩

/-- Settles O29: the stored result lands in local memory above the ROM region, with push. -/
theorem copyPushes : Obligations.CopyPushes := by
  intro s f r dest loc inc always width rom
  have mem : f.dest.isMem = true := by rw [dest]; rfl
  obtain ⟨out, result, stored, done⟩ := exec_copy_always (f := f) s (by simp [Fields.reserved, mem]) always
  have addr : s.dstAddr f r = s.core.reg r + f.offset.signExtend 16 - 1 := by
    simp [State.dstAddr, Fields.dstOff, Fields.push, mem, inc]
  obtain ⟨landed, pointer, -⟩ := localDestinationLands (s.afterReads f) f out r dest loc (by simpa using width) stored
  rw [State.dstAddr_afterReads, State.afterReads_dev, addr, if_neg (Nat.not_lt.2 rom), result] at landed
  exact ⟨_, done, by simpa [inc] using pointer, landed⟩

/-- Settles O30: the result lands in the register, and the pop adds to the source's pointer, another one. -/
theorem copyPops : Obligations.CopyPops := by
  intro s f r q source loc dest ne inc always
  have legal : f.reserved = false := by simp [Fields.reserved, source, Source.isMem]
  have pop : f.pop = true := by simp [Fields.pop, inc, dest, source, Dest.isMem, Source.isMem]
  have value : s.srcValue f = s.dev.load (s.core.reg r + f.imm) := by
    simp [State.srcValue, State.readOperands, State.srcRead, source, State.pointerRead, loc, State.srcAddr]
  obtain ⟨out, result, stored, done⟩ := exec_copy_always (f := f) s legal always
  obtain ⟨landed, others, -⟩ := registerDestinationLands (s.afterReads f) f out q dest stored
  refine ⟨_, done, ?_, ?_⟩
  · simpa [pop, source] using others r ne.symm
  · simpa [source, Ne.symm ne, result, value] using landed

end Sys2Proof.Machine
end

section
/-! Frames: what an instruction may change among the registers (41_execute.md R130 to R134), the flags and the overflow
register (42_alu.md R142), memory, control slots and the other devices (20_memory.md R60). -/

namespace Sys2Proof

theorem Fields.increment_of_push {f : Fields} (h : f.push = true) : f.increment = true :=
  (Bool.and_eq_true_iff.1 h).1

theorem Fields.of_pop {f : Fields} (h : f.pop = true) : f.increment = true ∧ f.dest.isMem = false := by
  simp only [Fields.pop, Bool.and_eq_true, Bool.not_eq_true'] at h
  exact h.1

end Sys2Proof

namespace Sys2Proof.Machine

open Sys2Proof

/-! ## Registers -/

/-- Settles O31: a discarded instruction writes no register; a stored one the destination and the adjusted pointer. -/
theorem otherRegistersAreKept : Obligations.OtherRegistersAreKept := by
  intro i s t q done frame
  obtain ⟨-, rfl⟩ := exec_next done
  cases stored : ((s.afterReads i.fields).latch (s.aluOut i).flags (s.aluOut i).oflow).stores i.fields with
  | false =>
    obtain ⟨-, -, kept, -⟩ := State.finish_discarded stored
    simpa using kept q
  | true =>
    have notDest : i.fields.dest ≠ .reg q := fun h => frame (.inl h)
    have notPushed : ¬(i.fields.dest = .mem q ∧ i.fields.push = true) := fun ⟨h, push⟩ =>
      frame (.inr (.inl ⟨h, Fields.increment_of_push push⟩))
    have notPopped : ¬(i.fields.pop = true ∧ i.fields.source = .mem q) := fun ⟨pop, h⟩ =>
      frame (.inr (.inr ⟨h, Fields.of_pop pop⟩))
    rw [State.finish_reg_of_stores stored, if_neg notDest, if_neg notPushed, if_neg notPopped, State.afterReads_core]
    exact BitVec.add_zero _

/-! ## Flags and overflow register -/

theorem FlagsAre.refl (F : Word) :
    FlagsAre F F (F.getLsbD 0) (F.getLsbD 1) (F.getLsbD 2) (F.getLsbD 3) (F.getLsbD 4) :=
  ⟨rfl, rfl, rfl, rfl, rfl, fun _ _ => rfl⟩

/-- Of the flags, every operation keeps `S` and bits 15:6; V is written by ADD, SUB and MUL and E by DIV alone. -/
theorem aluOf_flagsAre (i : Instr) (a b F O : Word) :
    ∃ z n c v e, FlagsAre (aluOf i a b F O).flags F z n c v e ∧
      (i.writesV = false → v = F.getLsbD 3) ∧ (i.aluCode ≠ 0xD → e = F.getLsbD 4) := by
  cases i with
  | copy f => exact ⟨_, _, _, _, _, FlagsAre.refl F, fun _ => rfl, fun _ => rfl⟩
  | and f | or f | xor f | inv f | swap f | msb f | lsb f | page f | oand f | shl f | shr f =>
    exact ⟨_, _, _, _, _, flagsAre_commonFlags F _ _, fun _ => rfl, fun _ => rfl⟩
  | add f | sub f | mul f =>
    exact ⟨_, _, _, _, _, (flagsAre_commonFlags F _ _).putV _, (fun h => by cases h), fun _ => rfl⟩
  | div f =>
    by_cases zero : a = 0
    · subst zero
      exact ⟨_, _, _, _, _, flagsAre_commonFlags_putE F b O true, fun _ => rfl, fun h => absurd rfl h⟩
    · rw [show aluOf (.div f) a b F O = aluDiv a b F O from rfl, aluDiv, if_neg zero]
      exact ⟨_, _, _, _, _, flagsAre_commonFlags_putE F _ _ false, fun _ => rfl, fun h => absurd rfl h⟩

/-- ALU code 0 is COPY's, which passes the flags through. -/
theorem aluOf_flags_of_copy {i : Instr} (code : i.aluCode = 0) (a b F O : Word) : (aluOf i a b F O).flags = F := by
  cases i with
  | copy f => rfl
  | _ => cases code

theorem aluOf_oflow_of_not_writesOflow {i : Instr} (h : i.writesOflow = false) (a b F O : Word) :
    (aluOf i a b F O).oflow = O := by
  cases i with
  | shl f | shr f | add f | sub f | mul f | div f => cases h
  | _ => rfl

theorem aluOf_oflow_of_div_zero {i : Instr} (code : i.aluCode = 0xD) (b F O : Word) :
    (aluOf i 0 b F O).oflow = O := by
  cases i with
  | div f => rfl
  | _ => cases code

/-- Settles O32: the flags are the ALU's but for a store to them, the overflow register is the ALU's always. -/
theorem flagsAndOverflowFrame : Obligations.FlagsAndOverflowFrame := by
  refine ⟨fun i s t done => ?_, fun s f out => ⟨State.finish_oflow s f out, State.finish_flags s f out⟩⟩
  obtain ⟨-, rfl⟩ := exec_next done
  rw [State.finish_oflow, State.finish_flags]
  refine ⟨fun notFlags notFlags4 => ?_, fun h => aluOf_oflow_of_not_writesOflow h _ _ _ _, fun code zero => ?_⟩
  · rw [if_neg fun h => h.2.elim notFlags notFlags4]
    obtain ⟨z, n, c, v, e, flags, keepsV, keepsE⟩ :=
      aluOf_flagsAre i (s.srcValue i.fields) (s.dstValue i.fields) s.core.flags s.core.oflow
    exact ⟨flags.kept, fun h => flags.overflow.trans (keepsV h), fun h => flags.error.trans (keepsE h),
      fun code => aluOf_flags_of_copy code _ _ _ _⟩
  · rw [State.aluOut, zero]
    exact aluOf_oflow_of_div_zero code _ _ _

/-! ## Memory, control slots and the other devices -/

/-- Settles O33: without a memory destination an instruction changes nothing outside the registers but `ih`. -/
theorem noMemoryDestinationFrame : Obligations.NoMemoryDestinationFrame := by
  intro i s t done notMem
  have none : ∀ r, i.fields.dest ≠ .mem r := fun r h => by simp [h, Dest.isMem] at notMem
  rcases exec_outside_cases done with
    ⟨dev, others⟩ | ⟨ih, ⟨v, dev⟩, others⟩ | ⟨r, _, dest, -⟩ | ⟨r, _, dest, -⟩
  · rw [dev]
    exact ⟨fun _ => rfl, others, rfl, rfl, rfl, rfl, fun _ => rfl⟩
  · rw [dev]
    exact ⟨fun _ => rfl, others, rfl, rfl, rfl, rfl, fun h => absurd ih h⟩
  · exact absurd dest (none r)
  · exact absurd dest (none r)

/-- Settles O34: a local store changes one word above the ROM region at most. -/
theorem localDestinationFrame : Obligations.LocalDestinationFrame := by
  intro i s t r done dest loc
  rcases exec_outside_cases done with
    ⟨dev, others⟩ | ⟨ih, -⟩ | ⟨r', v, dest', -, dev, others⟩ | ⟨r', _, dest', bus, -⟩
  · rw [dev]
    exact ⟨fun _ _ => rfl, fun _ _ => rfl, others, rfl, rfl, rfl, rfl, rfl⟩
  · simp [dest] at ih
  · obtain rfl : r = r' := Dest.mem.inj (dest.symm.trans dest')
    rw [dev]
    refine ⟨fun a h => ?_, fun a rom => ?_, others, by simp, by simp, by simp, by simp, by simp⟩
    · rw [Device.load_store, if_neg fun ⟨_, _, hit⟩ => h hit]
    · rw [Device.load_store, if_neg fun ⟨_, above, _⟩ => by omega]
  · obtain rfl : r = r' := Dest.mem.inj (dest.symm.trans dest')
    simp [loc] at bus

/-! ### The banked write, by where its address leads -/

theorem Device.slotWrite_mappedBlock (d : Device) {slot : BitVec 4} (v : Word) (h : slot ≠ 3) :
    (d.slotWrite slot v).mappedBlock = d.mappedBlock := by
  unfold Device.slotWrite
  split <;> first | rfl | (rename_i e; exact absurd (BitVec.eq_of_toNat_eq e) h)

theorem Device.slotWrite_status (d : Device) {slot : BitVec 4} (v : Word) (h : slot ≠ 4) :
    (d.slotWrite slot v).status = d.status := by
  unfold Device.slotWrite
  split <;> first | rfl | (rename_i e; exact absurd (BitVec.eq_of_toNat_eq e) h)

theorem Device.slotWrite_handler (d : Device) {slot : BitVec 4} (v : Word) (h : slot ≠ 5) :
    (d.slotWrite slot v).handler = d.handler := by
  unfold Device.slotWrite
  split <;> first | rfl | (rename_i e; exact absurd (BitVec.eq_of_toNat_eq e) h)

theorem State.updateAt_dev (s : State) (index : Byte) (g : Node → Node) : (s.updateAt index g).dev = s.dev := by
  rcases s.updateAt_cases index g with e | ⟨_, _, -, -, e⟩ <;> rw [e]

theorem State.busWrite_control {s : State} {a : Word} {index : Byte} {slot : BitVec 4} (v : Word)
    (h : busTarget a = .control index slot) :
    s.busWrite a v = s.updateAt index fun n => n.ctlWrite s.dev.params.id slot v s.draws := by
  simp only [State.busWrite, h]

theorem State.busWrite_block {s : State} {a : Word} {index w : Byte} (v : Word)
    (h : busTarget a = .block index w) :
    s.busWrite a v = s.updateAt index fun n => n.blockWrite s.dev.params.id w v s.draws := by
  simp only [State.busWrite, h]

/-- A write through an index leaves every device as it is or changes it by `g`. -/
theorem State.updateAt_found {s : State} {index : Byte} {g : Node → Node} (keepsId : ∀ n, (g n).id = n.id) {k : Word}
    {m n : Node} (before : findNode k s.others = some m) (after : findNode k (s.updateAt index g).others = some n) :
    n = m ∨ n = g m := by
  rw [s.findNode_updateAt index keepsId, before] at after
  split_ifs at after
  · exact .inr (Option.some.inj after).symm
  · exact .inl (Option.some.inj after).symm

/-- A block write leaves all of a device but its memory, and of that all but the word at its window address. -/
theorem Node.blockWrite_frame (n : Node) (src : Word) (w : Byte) (v : Word) (draw : Nat) :
    (n.blockWrite src w v draw).dev = { n.dev with mem := (n.blockWrite src w v draw).dev.mem } ∧
    ∀ a, n.dev.index a ≠ n.dev.index (n.dev.windowAddr w) →
      (n.blockWrite src w v draw).dev.load a = n.dev.load a := by
  rcases n.blockWrite_cases src w v draw with e | ⟨-, e⟩
  · rw [e]; exact ⟨rfl, fun _ _ => rfl⟩
  · rw [e]
    refine ⟨?_, fun a h => ?_⟩
    · rcases n.dev.store_cases (n.dev.windowAddr w) v with ⟨e', -⟩ | ⟨e', -⟩ <;> rw [e']
    · rw [Device.load_store, if_neg fun ⟨_, _, hit⟩ => h hit]

/-- What a banked write leaves unchanged, by where its address leads. -/
theorem State.busWrite_frame (s : State) (a v : Word) :
    (∀ slot, busTarget a = .own slot → (s.busWrite a v).others = s.others ∧
      (slot ≠ 3 → (s.busWrite a v).dev.mappedBlock = s.dev.mappedBlock) ∧
      (slot ≠ 4 → (s.busWrite a v).dev.status = s.dev.status) ∧
      (slot ≠ 5 → (s.busWrite a v).dev.handler = s.dev.handler)) ∧
    (∀ index slot, busTarget a = .control index slot → (s.busWrite a v).dev = s.dev ∧
      (∀ k, s.connectedId index ≠ some k → findNode k (s.busWrite a v).others = findNode k s.others) ∧
      (∀ k m n, findNode k s.others = some m → findNode k (s.busWrite a v).others = some n →
        n.dev.mem = m.dev.mem)) ∧
    (∀ index w, busTarget a = .block index w → (s.busWrite a v).dev = s.dev ∧
      (∀ k, s.connectedId index ≠ some k → findNode k (s.busWrite a v).others = findNode k s.others) ∧
      (∀ k m n, findNode k s.others = some m → findNode k (s.busWrite a v).others = some n →
        n.kind = m.kind ∧ n.dev = { m.dev with mem := n.dev.mem } ∧
        ∀ b, m.dev.index b ≠ m.dev.index (m.dev.windowAddr w) → n.dev.load b = m.dev.load b)) := by
  refine ⟨fun slot target => ?_, fun index slot target => ?_, fun index w target => ?_⟩
  · rw [State.busWrite_own v target]
    exact ⟨rfl, s.dev.slotWrite_mappedBlock v, s.dev.slotWrite_status v, s.dev.slotWrite_handler v⟩
  · rw [State.busWrite_control v target]
    refine ⟨s.updateAt_dev index _, fun k hk => ?_, fun k m n before after => ?_⟩
    · rw [s.findNode_updateAt index (fun n => by simp), if_neg hk]
    · rcases State.updateAt_found (fun n => by simp) before after with rfl | rfl
      · rfl
      · simp
  · rw [State.busWrite_block v target]
    refine ⟨s.updateAt_dev index _, fun k hk => ?_, fun k m n before after => ?_⟩
    · rw [s.findNode_updateAt index (fun n => by simp), if_neg hk]
    · rcases State.updateAt_found (fun n => by simp) before after with rfl | rfl
      · exact ⟨rfl, rfl, fun _ _ => rfl⟩
      · obtain ⟨dev, load⟩ := m.blockWrite_frame s.dev.params.id w v s.draws
        exact ⟨by simp, dev, load⟩

/-- Settles O35: the instruction leaves the system as it is or as its banked write leaves it. -/
theorem bankedDestinationFrame : Obligations.BankedDestinationFrame := by
  rintro i s t r target done dest bus rfl
  rcases exec_outside_cases done with
    ⟨dev, others⟩ | ⟨ih, -⟩ | ⟨r', _, dest', loc, -⟩ | ⟨r', v, dest', -, dev, others⟩
  · rw [dev, others]
    exact ⟨fun _ => rfl, rfl, rfl, fun _ _ => ⟨rfl, fun _ => rfl, fun _ => rfl, fun _ => rfl⟩,
      fun _ _ _ => ⟨rfl, fun _ _ => rfl, fun k m n before after => by rw [Option.some.inj (before.symm.trans after)]⟩,
      fun _ _ _ => ⟨rfl, fun _ _ => rfl, fun k m n before after => by
        rw [Option.some.inj (before.symm.trans after)]; exact ⟨rfl, rfl, fun _ _ => rfl⟩⟩⟩
  · simp [dest] at ih
  · obtain rfl : r = r' := Dest.mem.inj (dest.symm.trans dest')
    simp [bus] at loc
  · obtain rfl : r = r' := Dest.mem.inj (dest.symm.trans dest')
    obtain ⟨own, control, block⟩ := (s.afterReads i.fields).busWrite_frame (s.dstAddr i.fields r) v
    have connected : ∀ index, (s.afterReads i.fields).connectedId index = s.connectedId index := fun index => by
      simp [State.connectedId]
    rw [← dev, ← others] at own control block
    simp only [State.afterReads_dev, State.afterReads_others, connected] at own control block
    have params : t.dev.params = s.dev.params := exec_params done
    have mem : t.dev.mem = s.dev.mem := by rw [dev, State.busWrite_mem, State.afterReads_dev]
    have init : t.dev.initDevice = s.dev.initDevice := by rw [dev, State.busWrite_initDevice, State.afterReads_dev]
    exact ⟨fun a => by simp [Device.load, Device.index, params, mem], params, init, own, control, block⟩

/-! ## The run state -/

/-- Settles O36: the run state changes in a stored self-jump alone, which writes neither memory nor `R[1]`. -/
theorem onlyASelfJumpHalts : Obligations.OnlyASelfJumpHalts := by
  intro i s t done changed
  obtain ⟨-, rfl⟩ := exec_next done
  set u := s.afterReads i.fields
  set f := i.fields
  have run := u.finish_run f (s.aluOut i)
  split_ifs at run with halts
  · obtain ⟨stored, jump⟩ := halts
    obtain ⟨source, dest, result⟩ := State.isSelfJump_iff.1 jump
    obtain ⟨pc, -, regs, -⟩ := pcDestinationJumpsOrHalts u f (s.aluOut i) dest stored
    have r1 : (u.finish f (s.aluOut i)).core.r1 = u.core.r1 :=
      (regs .r1).trans (by simp [source]; rfl)
    have dev : (u.finish f (s.aluOut i)).dev = u.dev := by
      rw [State.finish_dev, if_pos stored]
      simp [State.dstWrite, dest]
    exact ⟨source, dest, by rw [pc, result]; simp [u], by rw [run, dev, r1]⟩
  · exact absurd (run.trans (by simp [u])) changed

end Sys2Proof.Machine
end

section
/-! The bus (20_memory.md R47) and the control slots behind it: the claim, the slots of an admitted issuer, the
introspection slots, the block window, the absent device and the processor's own slots (43_device_bus.md R172 to
R185). -/

namespace Sys2Proof.Machine

open Sys2Proof

/-! ## Where a bus address leads (R47) -/

theorem toNat_field (a : Word) (i n : Nat) : (a.extractLsb' i n).toNat = a.toNat / 2 ^ i % 2 ^ n := by
  rw [BitVec.extractLsb'_toNat, Nat.shiftRight_eq_div_pow]

theorem extractLsb'_eq_ofNat (a : Word) (i n : Nat) : a.extractLsb' i n = BitVec.ofNat n (a.toNat / 2 ^ i) :=
  BitVec.eq_of_toNat_eq (by rw [toNat_field, BitVec.toNat_ofNat])

/-- Settles O38: the fields of the address are quotients of its number, and the index field is 0 below 16 alone. -/
theorem busAddressSplit : Obligations.BusAddressSplit := by
  intro a
  have index : a.extractLsb' 4 8 = 0 ↔ a.toNat / 16 % 256 = 0 := by
    rw [← BitVec.toNat_inj, toNat_field]; rfl
  have slot : a.extractLsb' 0 4 = BitVec.ofNat 4 (a.toNat % 16) :=
    BitVec.eq_of_toNat_eq (by rw [toNat_field, BitVec.toNat_ofNat]; omega)
  refine ⟨fun h => ?_, fun low high => ?_, fun h => ?_⟩
  · rw [busTarget, if_pos (by omega), if_pos (index.2 (by omega)), slot, Nat.mod_eq_of_lt h]
  · rw [busTarget, if_pos high, if_neg (by rw [index]; omega), slot, extractLsb'_eq_ofNat]
    rfl
  · rw [busTarget, if_neg (by omega), extractLsb'_eq_ofNat,
      show a.extractLsb' 0 8 = BitVec.ofNat 8 (a.toNat % 256) from
        BitVec.eq_of_toNat_eq (by rw [toNat_field, BitVec.toNat_ofNat]; omega)]
    rfl

/-! ## The claim (R174, R175) -/

/-- Settles O41: the two conditions of `claimWrite` are the second and third of the chain, both for foreign writers. -/
theorem slotTwoClaims : Obligations.SlotTwoClaims := by
  rintro n src v w draw rfl
  change n.claimWrite src v draw = _
  by_cases owner : src = n.id
  · simp [Node.claimWrite, owner]
  · by_cases unclaimed : n.dev.initDevice = 0
    · simp [Node.claimWrite, owner, unclaimed]
    · by_cases init : src = n.dev.initDevice ∧ n.halted draw = true
      · rw [Node.claimWrite, if_neg (by simpa using fun _ => unclaimed), if_pos (by simpa [owner] using init),
          if_neg owner, if_neg unclaimed, if_pos init]
      · rw [Node.claimWrite, if_neg (by simpa using fun _ => unclaimed), if_neg (by simpa [owner] using init),
          if_neg owner, if_neg unclaimed, if_neg init]

/-! ## Slots 2 to 5 of an admitted issuer, and the slots of a leaf device (R172, R173, R177, R178) -/

/-- A changed device that keeps its id, its init device and its kind has the gate that it had. -/
theorem Node.admits_congr {n n' : Node} (id : n'.id = n.id) (init : n'.dev.initDevice = n.dev.initDevice)
    (kind : n'.kind = n.kind) (src : Word) (draw : Nat) : n'.admits src draw = n.admits src draw := by
  simp only [Node.admits, Node.admitsInit, Node.halted, id, init, kind]

/-- What an admitted issuer writes to slot 3, 4 or 5 is the slot write, and it reads back what the slot then holds. -/
theorem Node.ctlWrite_of_admits {n : Node} {src : Word} {draw : Nat} (ha : n.admits src draw = true)
    {slot : BitVec 4} (h : slot.toNat < 6) (h2 : slot ≠ 2) (v : Word) :
    n.ctlWrite src slot v draw = { n with dev := n.dev.slotWrite slot v } ∧
    (n.ctlWrite src slot v draw).ctlRead src slot draw = (n.dev.slotWrite slot v).slotRead slot := by
  have write : n.ctlWrite src slot v draw = { n with dev := n.dev.slotWrite slot v } := by
    rw [n.ctlWrite_of_lt_six src v draw h h2, if_pos ha]
  refine ⟨write, ?_⟩
  rw [write]
  have gate := Node.admits_congr (n := n) (n' := { n with dev := n.dev.slotWrite slot v }) (by simp [Node.id])
    (by simp) rfl src draw
  exact Node.ctlRead_of_admits _ (gate.trans ha) h

/-- The low byte of a word, stored and read back (decision D24). -/
theorem setWidth_setWidth_byte (v : Word) : ((v.setWidth 8 : Byte).setWidth 16 : Word) = v &&& 0x00FF := by
  rw [lowByte_eq_ofNat]
  apply BitVec.eq_of_toNat_eq
  simp

theorem setWidth_byte_eq_ofNat (v : Word) : (v.setWidth 8 : Byte) = BitVec.ofNat 8 (v.toNat % 256) := by
  apply BitVec.eq_of_toNat_eq
  simp

/-- Slots 6 to 15 are no slots that a device stores. -/
theorem Device.slotWrite_of_six_le (d : Device) {slot : BitVec 4} (v : Word) (h : 6 ≤ slot.toNat) :
    d.slotWrite slot v = d := by
  unfold Device.slotWrite
  split <;> first | rfl | omega

theorem Node.ctlWrite_leaf_of_six_le {n : Node} {k : LeafKind} (hk : n.kind = .leaf k) {slot : BitVec 4}
    (h : 6 ≤ slot.toNat) (src v : Word) (draw : Nat) : n.ctlWrite src slot v draw = n := by
  have h2 : slot ≠ 2 := by rintro rfl; exact absurd h (by decide)
  have self : ({ n with kind := .leaf k } : Node) = n := by rw [← hk]
  simp only [Node.ctlWrite, if_neg h2, hk, Device.slotWrite_of_six_le n.dev v h, self, ite_self]

/-- Settles O42: slots 3 to 5 through the gate, read back through the same gate; a leaf device's slots 6 to 15. -/
theorem admittedSlotsReadBack : Obligations.AdmittedSlotsReadBack := by
  intro n src v draw
  refine ⟨fun ha => ?_, fun k hk => ⟨fun slot h => ⟨n.ctlWrite_leaf_of_six_le hk h src v draw, fun ha => ?_⟩,
    fun b fixed => ?_, fun free => ?_⟩⟩
  · obtain ⟨write3, read3⟩ := Node.ctlWrite_of_admits ha (slot := 3) (by decide) (by decide) v
    obtain ⟨write4, read4⟩ := Node.ctlWrite_of_admits ha (slot := 4) (by decide) (by decide) v
    obtain ⟨write5, read5⟩ := Node.ctlWrite_of_admits ha (slot := 5) (by decide) (by decide) v
    refine ⟨write3, ?_, write5, read3, read4.trans (setWidth_setWidth_byte v), read5,
      n.ctlRead_of_admits ha (by decide)⟩
    rw [write4, ← setWidth_byte_eq_ofNat]
    rfl
  · simp only [Node.ctlRead, hk, ha, h, if_true, leafSlotRead]
  · simp only [Node.halted, hk, fixed]
  · simp only [Node.halted, hk, free]

/-! ## The introspection slots (R179, R180) -/

section Introspection

variable {n : Node} {c : Core} {src : Word} {slot : BitVec 4} {draw : Nat}

theorem RunState.isHalted_iff {r : RunState} : r.isHalted = true ↔ ∃ code, r = .halted code := by
  cases r <;> simp [RunState.isHalted]

theorem Node.ctlRead_processor (hk : n.kind = .processor c) (h : 6 ≤ slot.toNat) :
    n.ctlRead src slot draw = if n.admitsIntrospection src draw then c.slotRead n.dev slot else 0 := by
  simp only [Node.ctlRead, hk, h, if_true]

theorem Node.ctlWrite_processor_of_six_le (hk : n.kind = .processor c) (h : 6 ≤ slot.toNat) (v : Word) :
    n.ctlWrite src slot v draw =
      if n.admitsIntrospection src draw then { n with kind := .processor (c.slotWrite slot v) } else n := by
  have h2 : slot ≠ 2 := by rintro rfl; exact absurd h (by decide)
  simp only [Node.ctlWrite, if_neg h2, hk, h, if_true]

/-- An introspection write leaves the stricter gate as it is, for it does not reach the run state. -/
theorem Node.admitsIntrospection_slotWrite (hk : n.kind = .processor c) (v : Word) :
    ({ n with kind := .processor (c.slotWrite slot v) } : Node).admitsIntrospection src draw =
      n.admitsIntrospection src draw := by
  simp only [Node.admitsIntrospection, Node.admitsInit, Node.halted, Node.id, hk, Core.slotWrite_run]

theorem Core.slotRead_slotWrite (c : Core) (d : Device) (v : Word) (low : 8 ≤ slot.toNat) (high : slot.toNat ≤ 14) :
    (c.slotWrite slot v).slotRead d slot = v := by
  obtain ⟨⟨k, hk⟩⟩ := slot
  change 8 ≤ k at low
  change k ≤ 14 at high
  interval_cases k <;> rfl

/-- The writes that slots 6, 7 and 15 ignore put the registers back as they are (R180). -/
theorem Node.with_processor_self (hk : n.kind = .processor c) : ({ n with kind := .processor c } : Node) = n := by
  rw [← hk]

end Introspection

/-- Settles O43: past the stricter gate, the tables of the processor's slots; before it, 0 and no change. -/
theorem introspectionSlots : Obligations.IntrospectionSlots := by
  intro n c src v slot draw hk
  have halted : n.halted draw = true ↔ ∃ code, c.run = .halted code := by
    rw [Node.halted_of_processor hk, RunState.isHalted_iff]
  have self := Node.with_processor_self hk
  refine ⟨?_, halted, fun ha => ?_, fun ha => ?_, fun ha low high => ?_, fun ha h => ?_, fun h => ?_⟩
  · rw [Node.admitsIntrospection, Bool.and_eq_true, bne_iff_ne, Node.admitsInit_iff, halted]
  · have read : ∀ slot : BitVec 4, 6 ≤ slot.toNat → n.ctlRead src slot draw = c.slotRead n.dev slot := fun slot h => by
      rw [Node.ctlRead_processor hk h, if_pos ha]
    exact ⟨read 6 (by decide), read 7 (by decide), read 8 (by decide), read 9 (by decide), read 10 (by decide),
      read 11 (by decide), read 12 (by decide), read 13 (by decide), read 14 (by decide), read 15 (by decide)⟩
  · have write : ∀ slot : BitVec 4, 6 ≤ slot.toNat →
        n.ctlWrite src slot v draw = { n with kind := .processor (c.slotWrite slot v) } := fun slot h => by
      rw [Node.ctlWrite_processor_of_six_le hk h, if_pos ha]
    exact ⟨(write 6 (by decide)).trans self, (write 7 (by decide)).trans self, write 8 (by decide),
      write 9 (by decide), write 10 (by decide), write 11 (by decide), write 12 (by decide), write 13 (by decide),
      write 14 (by decide), (write 15 (by decide)).trans self⟩
  · have h6 : 6 ≤ slot.toNat := by omega
    have write : n.ctlWrite src slot v draw = { n with kind := .processor (c.slotWrite slot v) } := by
      rw [Node.ctlWrite_processor_of_six_le hk h6, if_pos ha]
    refine ⟨?_, _, write, by simp, by simp, by simp⟩
    rw [write, Node.ctlRead_processor rfl h6, Node.admitsIntrospection_slotWrite hk, if_pos ha]
    exact c.slotRead_slotWrite n.dev v low high
  · rw [Node.ctlRead_processor hk h, Node.ctlWrite_processor_of_six_le hk h, ha]
    exact ⟨rfl, rfl⟩
  · rw [Node.ctlRead_processor hk h, Node.ctlWrite_processor_of_six_le hk h, Node.admitsIntrospection_owner]
    exact ⟨rfl, rfl⟩

/-! ## The block window (R181, R182) -/

theorem Device.windowAddr_eq_ofNat (d : Device) (w : Byte) :
    d.windowAddr w = BitVec.ofNat 16 (d.mappedBlock.toNat * 256 + w.toNat) := by
  have := w.isLt
  apply BitVec.eq_of_toNat_eq
  rw [Device.windowAddr, toNat_append_eq_mul_add, toNat_field, BitVec.toNat_ofNat]
  omega

/-- Settles O44: the block write is a local store at the window address, which moves neither the window nor the gate. -/
theorem blockWindowReadsBack : Obligations.BlockWindowReadsBack := by
  intro n src v w draw ha width rom
  have write : n.blockWrite src w v draw = { n with dev := n.dev.store (n.dev.windowAddr w) v } := by
    rw [Node.blockWrite, if_pos ha]
  have window : (n.dev.store (n.dev.windowAddr w) v).windowAddr w = n.dev.windowAddr w := by
    simp only [Device.windowAddr, Device.store_mappedBlock]
  have load : (n.dev.store (n.dev.windowAddr w) v).load (n.dev.windowAddr w) = v := by
    rw [Device.load_store, if_pos ⟨width, rom, rfl⟩]
  have admitted : (n.blockWrite src w v draw).admits src draw = true := by
    exact (Node.admits_congr (by simp) (by simp [write]) (by simp) src draw).trans ha
  refine ⟨?_, ?_⟩
  · rw [Node.blockRead, if_pos admitted, write, window, load]
  · rw [← Device.windowAddr_eq_ofNat, write, load]

/-! ## The absent device (R183) -/

theorem State.updateAt_of_absent {s : State} {index : Byte} (absent : s.deviceAt index = none) (g : Node → Node) :
    s.updateAt index g = s := by
  unfold State.deviceAt at absent
  unfold State.updateAt
  cases connected : s.connectedId index with
  | none => rfl
  | some id =>
    rw [connected] at absent
    dsimp only at absent ⊢
    rw [absent]

/-- Settles O45: an absent device answers 0 to both reads and takes neither write. -/
theorem absentDeviceReadsZero : Obligations.AbsentDeviceReadsZero := by
  rintro s a v index absent (⟨slot, target⟩ | ⟨w, target⟩)
  · rw [State.busWrite_control v target, State.updateAt_of_absent absent]
    exact ⟨by simp only [State.busRead, target, absent], rfl⟩
  · rw [State.busWrite_block v target, State.updateAt_of_absent absent]
    exact ⟨by simp only [State.busRead, target, absent], rfl⟩

/-! ## The processor's own slots (R185) -/

/-- Settles O46: the owner reads slots 0 to 5 and writes 3 to 5 of them. -/
theorem ownSlotsOnTheBus : Obligations.OwnSlotsOnTheBus := by
  intro s v
  have target : ∀ a : Word, a.toNat < 16 → busTarget a = .own (BitVec.ofNat 4 a.toNat) := fun a =>
    (busAddressSplit a).1
  have read : ∀ a : Word, a.toNat < 16 → (s.busRead a).1 =
      if 6 ≤ (BitVec.ofNat 4 a.toNat).toNat then 0 else s.dev.slotRead (BitVec.ofNat 4 a.toNat) := fun a h => by
    rw [State.busRead_own (target a h)]
  have write : ∀ a : Word, a.toNat < 16 →
      s.busWrite a v = { s with dev := s.dev.slotWrite (BitVec.ofNat 4 a.toNat) v } := fun a h =>
    State.busWrite_own v (target a h)
  refine ⟨read 0 (by decide), read 1 (by decide), read 2 (by decide), read 3 (by decide), read 4 (by decide),
    read 5 (by decide), write 0 (by decide), write 1 (by decide), write 2 (by decide), write 3 (by decide), ?_,
    write 5 (by decide), fun a low high => ?_⟩
  · rw [write 4 (by decide), ← setWidth_byte_eq_ofNat]
    rfl
  · have number : 6 ≤ (BitVec.ofNat 4 a.toNat).toNat := by
      rw [BitVec.toNat_ofNat, Nat.mod_eq_of_lt high]
      exact low
    rw [read a high, if_pos number, write a high, Device.slotWrite_of_six_le _ v number]
    exact ⟨rfl, rfl⟩

end Sys2Proof.Machine
end

section
/-! The step, its two stops, and the turn (41_execute.md R120, R124, 60_exceptions.md R218). -/

namespace Sys2Proof.Machine

open Sys2Proof

/-! ## The step of a running processor -/

section Running

variable {s : State} (running : s.core.run = .running)
include running

theorem step_of_exec_next {t : State} (h : exec s.fetched s = .next t) : step s = .next t.handOver := by
  simp only [step, running, h]

theorem step_of_exec_refused {r : Refusal} (h : exec s.fetched s = .refused r) : step s = .refused r := by
  simp only [step, running, h]

theorem step_of_exec_fault {e : Fault} (h : exec s.fetched s = .fault e) : step s = .fault e := by
  simp only [step, running, h]

end Running

theorem step_of_halted {s : State} {code : Word} (halted : s.core.run = .halted code) :
    step s = if s.others.any Node.isRunning then .next s.tick.handOver else .fault (.halted code) := by
  simp only [step, halted]

/-! ## Handing on changes no device -/

theorem State.handOver_nodes (s : State) : List.Perm s.handOver.nodes s.nodes := s.handOver_perm

/-- Under the invariant, rearranging the devices keeps every id at its device. -/
theorem State.node_of_perm {s t : State} (perm : List.Perm t.nodes s.nodes) (inv : s.Inv) (id : Word) :
    t.node id = s.node id :=
  findNode_perm perm inv.unique id

/-- Settles O47: `step` unfolded once for a running processor, and handing on as a permutation of the devices. -/
theorem stepRunsTheDecodedInstruction : Obligations.StepRunsTheDecodedInstruction := by
  refine ⟨fun s i running fetched _ => ?_, fun t => ⟨t.handOver_nodes, State.node_of_perm t.handOver_nodes⟩,
    fun s t code halted done => ?_⟩
  · have fetch : s.fetched = i := fetched
    subst fetch
    refine ⟨fun t h => ⟨step_of_exec_next running h, fun alone => ?_⟩, fun r => step_of_exec_refused running,
      fun e => step_of_exec_fault running⟩
    rw [step_of_exec_next running h, State.handOver_alone alone]
  · rcases step_next_cases done with ⟨running, -⟩ | ⟨_, -, -, rfl⟩
    · rw [halted] at running
      cases running
    · exact ⟨s.tick.handOver_nodes, State.node_of_perm s.tick.handOver_nodes⟩

/-! ## The two stops -/

theorem Node.isRunning_eq_false_iff {n : Node} :
    n.isRunning = false ↔ ∀ c, n.kind = .processor c → c.run ≠ .running := by
  cases hk : n.kind with
  | leaf k => simp [Node.isRunning, hk]
  | processor c => cases hr : c.run <;> simp [Node.isRunning, hk, hr, RunState.isHalted]

/-- Settles O48: an instruction never faults, so the stop is the halted processor's with no other that runs. -/
theorem stopsOnlyWhenAllHalted : Obligations.StopsOnlyWhenAllHalted := by
  intro s e
  cases run : s.core.run with
  | running =>
    have noFault : step s ≠ .fault e := by
      cases h : exec s.fetched s with
      | next t => simp [step_of_exec_next run h]
      | fault e' => exact absurd h (exec_ne_fault s.fetched s e')
      | refused r => simp [step_of_exec_refused run h]
    simp [noFault]
  | halted code =>
    have none : s.others.any Node.isRunning = false ↔
        ∀ n ∈ s.others, ∀ c, n.kind = .processor c → c.run ≠ .running := by
      simp only [List.any_eq_false, Bool.not_eq_true, Node.isRunning_eq_false_iff]
    rw [step_of_halted run, ← none]
    cases s.others.any Node.isRunning <;> simp [eq_comm]

/-- Settles O49: a halted processor's step refuses nothing, a running one's what `exec` refuses. -/
theorem refusedOnlyForReservedIncrement : Obligations.RefusedOnlyForReservedIncrement := by
  intro s r
  cases run : s.core.run with
  | running =>
    have same : step s = .refused r ↔ exec s.fetched s = .refused r := by
      cases h : exec s.fetched s with
      | next t => simp [step_of_exec_next run h]
      | fault e => exact absurd h (exec_ne_fault s.fetched s e)
      | refused r' => simp [step_of_exec_refused run h]
    rw [same, exec_refused_iff]
    simp
  | halted code =>
    rw [step_of_halted run]
    split_ifs <;> simp

/-! ## The turn -/

/-- The turn can be given unless no other processor runs. -/
theorem swapIn_eq_none {me : Node} : ∀ {ns : List Node}, swapIn (fun _ => true) me ns = none →
    ∀ n ∈ ns, n.isRunning = false
  | [], _, n, hn => absurd hn List.not_mem_nil
  | a :: ns, h, n, hn => by
    have idle : a.isRunning = false := by
      by_contra awake
      have running : a.isRunning = true := by simpa using awake
      cases hk : a.kind with
      | leaf k => simp [Node.isRunning, hk] at running
      | processor c => simp [swapIn, hk, running] at h
    rw [swapIn_cons_of_not_running idle, Option.map_eq_none_iff] at h
    rcases List.mem_cons.1 hn with rfl | hn
    · exact idle
    · exact swapIn_eq_none h n hn

theorem State.giveTurn_eq_none {s : State} (h : s.giveTurn (fun _ => true) = none) :
    ∀ n ∈ s.others, n.isRunning = false := by
  unfold State.giveTurn at h
  split at h
  · exact swapIn_eq_none ‹_›
  · cases h

theorem State.giveTurn_running {s t : State} {p : Node → Bool} (h : s.giveTurn p = some t) :
    t.core.run = .running := by
  obtain ⟨-, awake, -⟩ := State.giveTurn_perm h
  cases run : t.core.run with
  | running => rfl
  | halted code => simp [run, RunState.isHalted] at awake

/-- After handing on, the turn is with a running processor, or none runs. -/
theorem State.handOver_turn (s : State) :
    s.handOver.core.run = .running ∨ ∀ n ∈ s.handOver.others, n.isRunning = false := by
  unfold State.handOver
  split
  · exact .inl (State.giveTurn_running ‹_›)
  · split
    · exact .inl ‹_›
    · cases h : s.giveTurn (fun _ => true) with
      | none => exact .inr (State.giveTurn_eq_none h)
      | some t => exact .inl (State.giveTurn_running h)

/-- Settles O50: every step ends with handing on. -/
theorem turnGoesToARunningProcessor : Obligations.TurnGoesToARunningProcessor := by
  intro s t done stopped n hn
  rw [← Node.isRunning_eq_false_iff]
  have turn : t.core.run = .running ∨ ∀ n ∈ t.others, n.isRunning = false := by
    rcases step_next_cases done with ⟨-, u, -, rfl⟩ | ⟨_, -, -, rfl⟩
    · exact u.handOver_turn
    · exact s.tick.handOver_turn
  exact turn.resolve_left stopped n hn

end Sys2Proof.Machine
end

section
/-! Reset and loading (70_reset_and_hazards.md R220 to R222): what a constructed system is made of, and the byte order
of an image. -/

namespace Sys2Proof.Machine

open Sys2Proof

/-! ## The reset state -/

/-- Settles O52: the one processor of the reset state has legal parameters, an empty memory and `next = pc + 2`. -/
theorem resetSatisfiesTheInvariant : Obligations.ResetSatisfiesTheInvariant where
  legal := List.forall_mem_singleton.2 {
    id_ne_zero := by decide
    width := by decide
    rom := Nat.zero_le _
    index_ne_zero := fun _ h => absurd h List.not_mem_nil
    not_itself := fun _ h => absurd h List.not_mem_nil }
  sound := List.forall_mem_singleton.2 ⟨Memory.wf_nil, fun _ h => absurd h List.not_mem_nil⟩
  processors := List.forall_mem_singleton.2 ((Node.processorSound_of_processor rfl).2 ⟨rfl, by decide⟩)
  unique := List.nodup_singleton _

theorem Device.load_of_empty {d : Device} (h : d.mem = []) (a : Word) : d.load a = 0 := by
  rw [Device.load, h, Memory.read_nil, ite_self]

/-- Settles O58: the registers and slots at reset, the empty memory, and the fetch at pc 0. -/
theorem resetState : Obligations.ResetState :=
  ⟨rfl, rfl, rfl, rfl, rfl, Device.load_of_empty rfl, rfl⟩

/-! ## A device as construction builds it -/

@[simp] theorem DeviceSpec.node_dev (x : DeviceSpec) : x.node.dev = x.device := by
  unfold DeviceSpec.node
  split <;> rfl

theorem DeviceSpec.node_id (x : DeviceSpec) : x.node.id = x.params.id := by
  rw [Node.id, DeviceSpec.node_dev]
  rfl

theorem DeviceSpec.node_of_processor {x : DeviceSpec} (h : x.kind = .processor) :
    x.node = { dev := x.device, kind := .processor Core.reset } := by
  simp only [DeviceSpec.node, h]

theorem DeviceSpec.node_of_leaf {x : DeviceSpec} {k : LeafKind} (h : x.kind = .leaf k) :
    x.node = { dev := x.device, kind := .leaf k } := by
  simp only [DeviceSpec.node, h]

theorem DeviceSpec.device_isReset (x : DeviceSpec) : x.device.IsReset x.params x.image where
  params := rfl
  unclaimed := rfl
  mappedBlock := rfl
  status := rfl
  handler := rfl
  loaded k _ := by simpa [DeviceSpec.device, Device.reset] using Memory.read_ofWordsFrom x.image 0 k
  clear k hk := by
    have read := Memory.read_ofWordsFrom x.image 0 k
    rw [List.getD_eq_default _ _ hk] at read
    simpa [DeviceSpec.device, Device.reset] using read

/-- What `DeviceSpec.legal` checks, part by part (00_scope.md R6). -/
theorem DeviceSpec.legal_iff {x : DeviceSpec} :
    x.legal = true ↔ x.params.id ≠ 0 ∧
      (x.params.addressWidth = 0 ∧ x.kind ≠ .processor ∨ 8 ≤ x.params.addressWidth ∧ x.params.addressWidth ≤ 16) ∧
      x.params.romEnd ≤ 2 ^ x.params.addressWidth ∧
      (∀ c ∈ x.params.connected, c.1 ≠ 0 ∧ c.2 ≠ x.params.id) ∧ (x.params.connected.map Prod.fst).Nodup := by
  simp only [DeviceSpec.legal, Bool.and_eq_true, Bool.or_eq_true, bne_iff_ne, beq_iff_eq, decide_eq_true_eq,
    List.all_eq_true, and_assoc]

theorem DeviceSpec.node_legal {x : DeviceSpec} (h : x.legal = true) : x.node.Legal := by
  obtain ⟨id, width, rom, connected, -⟩ := DeviceSpec.legal_iff.1 h
  have params : x.node.dev.params = x.params := by rw [DeviceSpec.node_dev]; rfl
  refine ⟨?_, ?_, ?_, ?_, ?_⟩
  · rwa [DeviceSpec.node_id]
  · rw [params]
    exact width.imp_left And.left
  · rwa [params]
  · rw [params]
    exact fun c hc => (connected c hc).1
  · rw [params, DeviceSpec.node_id]
    exact fun c hc => (connected c hc).2

theorem DeviceSpec.device_sound {x : DeviceSpec} (h : x.imageFits = true) : x.device.Sound where
  canonical := Memory.wf_ofWordsFrom x.image 0
  inside y hy := by
    have fits : x.image.length ≤ x.device.memSize := of_decide_eq_true h
    have bounds := Memory.le_of_mem_ofWordsFrom hy
    omega

theorem DeviceSpec.node_processorSound {x : DeviceSpec} (h : x.legal = true) : x.node.ProcessorSound := by
  obtain ⟨-, width, -⟩ := DeviceSpec.legal_iff.1 h
  cases hk : x.kind with
  | leaf k =>
    rw [DeviceSpec.node_of_leaf hk]
    exact Node.processorSound_of_leaf rfl
  | processor =>
    rw [DeviceSpec.node_of_processor hk]
    refine (Node.processorSound_of_processor rfl).2 ⟨rfl, ?_⟩
    change x.params.addressWidth ≠ 0
    rcases width with ⟨-, notProcessor⟩ | wide
    · exact absurd hk notProcessor
    · omega

/-! ## A constructed system -/

/-- What `construct` checks when it gives a system, and the system that it gives. -/
theorem construct_ok {first : DeviceSpec} {rest : List DeviceSpec} {s : State} (h : construct first rest = .ok s) :
    (∀ x ∈ first :: rest, x.legal = true) ∧ (∀ x ∈ first :: rest, x.imageFits = true) ∧
    ((first :: rest).map fun x => x.params.id).Nodup ∧ first.kind = .processor ∧
    s = { dev := first.device, core := Core.reset, others := rest.map DeviceSpec.node, draws := 0 } := by
  unfold construct at h
  dsimp only at h
  split_ifs at h with legal fits unique connected
  cases hk : first.kind with
  | leaf k => simp [hk] at h
  | processor =>
    rw [hk] at h
    cases h
    simp only [Bool.not_eq_true', Bool.not_eq_false, List.all_eq_true, decide_eq_true_eq] at legal fits unique
    exact ⟨legal, fits, unique, rfl, rfl⟩

/-- Settles O53: the devices of a constructed system are those of its specification, each in its reset state. -/
theorem constructedSystemsAreSound : Obligations.ConstructedSystemsAreSound := by
  intro first rest s built
  obtain ⟨legal, fits, unique, kind, rfl⟩ := construct_ok built
  set s : State := { dev := first.device, core := Core.reset, others := rest.map DeviceSpec.node, draws := 0 }
  have nodes : s.nodes = (first :: rest).map DeviceSpec.node := by
    rw [List.map_cons, DeviceSpec.node_of_processor kind]
    rfl
  have ids : s.nodes.map Node.id = (first :: rest).map fun x => x.params.id := by
    rw [nodes, List.map_map]
    exact List.map_congr_left fun x _ => x.node_id
  have each : ∀ n ∈ s.nodes, ∃ x ∈ first :: rest, n = x.node := fun n hn => by
    rw [nodes] at hn
    obtain ⟨x, hx, e⟩ := List.mem_map.1 hn
    exact ⟨x, hx, e.symm⟩
  have inv : s.Inv := by
    refine ⟨fun n hn => ?_, fun n hn => ?_, fun n hn => ?_, ids ▸ unique⟩ <;> obtain ⟨x, hx, rfl⟩ := each n hn
    · exact DeviceSpec.node_legal (legal x hx)
    · rw [DeviceSpec.node_dev]
      exact DeviceSpec.device_sound (fits x hx)
    · exact DeviceSpec.node_processorSound (legal x hx)
  refine ⟨inv, rfl, first.device_isReset, by simp [s], fun x hx => ⟨x.node, ?_, ?_, fun hk => ?_, fun k hk => ?_⟩⟩
  · rw [← x.node_id]
    exact findNode_of_mem inv.unique (by rw [nodes]; exact List.mem_map_of_mem (List.mem_cons_of_mem _ hx))
  · rw [DeviceSpec.node_dev]
    exact x.device_isReset
  · rw [DeviceSpec.node_of_processor hk]
    rfl
  · rw [DeviceSpec.node_of_leaf hk]

/-! ## The byte order of an image (R42) -/

theorem packImage_of_odd : ∀ {bytes : List Byte}, bytes.length % 2 = 1 → packImage bytes = .error .oddImage
  | [], h => by simp at h
  | [_], _ => rfl
  | high :: low :: rest, h => by
    have odd : rest.length % 2 = 1 := by simp only [List.length_cons] at h; omega
    simp only [packImage, packImage_of_odd odd]

/-- The two halves of a packed word. -/
theorem packWord_bytes (high low : Byte) :
    (packWord high low).extractLsb' 8 8 = high ∧ (packWord high low).extractLsb' 0 8 = low := by
  have := low.isLt
  have := high.isLt
  constructor <;> apply BitVec.eq_of_toNat_eq <;> rw [toNat_field, packWord, toNat_append_eq_mul_add] <;> omega

theorem packImage_of_even : ∀ {bytes : List Byte}, bytes.length % 2 = 0 →
    ∃ ws, packImage bytes = .ok ws ∧ ws.length = bytes.length / 2 ∧ ∀ k, k < ws.length →
      (ws.getD k 0).extractLsb' 8 8 = bytes.getD (2 * k) 0 ∧
      (ws.getD k 0).extractLsb' 0 8 = bytes.getD (2 * k + 1) 0
  | [], _ => ⟨[], rfl, rfl, fun _ h => absurd h (Nat.not_lt_zero _)⟩
  | [_], h => by simp at h
  | high :: low :: rest, h => by
    have even : rest.length % 2 = 0 := by simp only [List.length_cons] at h; omega
    obtain ⟨ws, packed, length, bytes⟩ := packImage_of_even even
    refine ⟨packWord high low :: ws, by simp only [packImage, packed], ?_, fun k hk => ?_⟩
    · simp only [List.length_cons, length]
      omega
    · cases k with
      | zero => exact packWord_bytes high low
      | succ k => exact bytes k (Nat.lt_of_succ_lt_succ hk)

/-- Settles O59: two bytes to a word, by recursion on the stream. -/
theorem loaderPacksBigEndian : Obligations.LoaderPacksBigEndian := fun _ => ⟨packImage_of_odd, packImage_of_even⟩

end Sys2Proof.Machine
end

section
/-! What each operand code reads (40_operands.md R91 to R106, 20_memory.md R48). -/

namespace Sys2Proof

/-! ## An operand is known by its code -/

theorem Source.eq_of_code {a b : Source} (h : a.code = b.code) : a = b := by
  rw [← Source.ofCode_code a, h, Source.ofCode_code]

theorem Dest.eq_of_code {a b : Dest} (h : a.code = b.code) : a = b := by
  rw [← Dest.ofCode_code a, h, Dest.ofCode_code]

end Sys2Proof

namespace Sys2Proof.Machine

open Sys2Proof

/-! ## The two values, operand by operand -/

section Values

variable {s : State} {f : Fields}

theorem State.srcValue_eq : s.srcValue f = (s.srcRead f).1 := rfl

theorem State.dstValue_eq : s.dstValue f = ((s.srcRead f).2.dstRead f).1 := rfl

theorem State.srcValue_of_local {r : Reg} (source : f.source = .mem r) (loc : r.isLocal = true) {pointer : Word}
    (hp : s.core.reg r = pointer) : s.srcValue f = s.dev.load (pointer + f.imm) := by
  simp [← hp, State.srcValue_eq, State.srcRead, source, State.pointerRead, loc, State.srcAddr]

theorem State.srcValue_of_bus {r : Reg} (source : f.source = .mem r) (bus : r.isLocal = false) {pointer : Word}
    (hp : s.core.reg r = pointer) : s.srcValue f = (s.busRead (pointer + f.imm)).1 := by
  simp [← hp, State.srcValue_eq, State.srcRead, source, State.pointerRead, bus, State.srcAddr]

theorem State.srcValue_of_reg {r : Reg} (source : f.source = .reg r) {value : Word} (hv : s.core.reg r = value) :
    s.srcValue f = value + f.imm := by
  simp [← hv, State.srcValue_eq, State.srcRead, source]

/-- The destination address: pointer plus offset, one lower with push (R99). -/
theorem State.dstAddr_of_mem {r : Reg} (dest : f.dest = .mem r) {x : Word}
    (hx : x = f.offset.signExtend 16 - (if f.increment then 1 else 0)) : s.dstAddr f r = s.core.reg r + x := by
  have mem : f.dest.isMem = true := by rw [dest]; rfl
  rw [State.dstAddr, Fields.dstOff, Fields.push_of_mem mem, if_pos mem, hx, add_sub_assoc]

theorem State.dstValue_of_local {r : Reg} (dest : f.dest = .mem r) (loc : r.isLocal = true) {pointer x : Word}
    (hp : s.core.reg r = pointer) (hx : x = f.offset.signExtend 16 - (if f.increment then 1 else 0)) :
    s.dstValue f = s.dev.load (pointer + x) := by
  subst hp
  have addr : (s.srcRead f).2.dstAddr f r = s.core.reg r + x := by
    rw [State.dstAddr_of_mem dest hx, State.srcRead_core]
  simp [State.dstValue_eq, State.dstRead, dest, State.pointerRead, loc, addr]

theorem State.dstValue_of_bus {r : Reg} (dest : f.dest = .mem r) (bus : r.isLocal = false) {pointer x : Word}
    (hp : s.core.reg r = pointer) (hx : x = f.offset.signExtend 16 - (if f.increment then 1 else 0)) :
    s.dstValue f = ((s.srcRead f).2.busRead (pointer + x)).1 := by
  subst hp
  have addr : (s.srcRead f).2.dstAddr f r = s.core.reg r + x := by
    rw [State.dstAddr_of_mem dest hx, State.srcRead_core]
  simp [State.dstValue_eq, State.dstRead, dest, State.pointerRead, bus, addr]

theorem State.dstValue_of_reg {r : Reg} (dest : f.dest = .reg r) : s.dstValue f = s.core.reg r := by
  simp [State.dstValue_eq, State.dstRead, dest]

/-- What a bus word of a connected device is (R48). -/
theorem State.Connects.busRead {index : Byte} {n : Node} (h : s.Connects index n) (a : Word) :
    (∀ slot, busTarget a = .control index slot → (s.busRead a).1 = n.ctlRead s.dev.params.id slot s.draws) ∧
    (∀ w, busTarget a = .block index w → (s.busRead a).1 = n.blockRead s.dev.params.id w s.draws) := by
  obtain ⟨-, -, present⟩ := h.found
  exact ⟨fun slot target => by simp only [State.busRead, target, present],
    fun w target => by simp only [State.busRead, target, present]⟩

end Values

/-- Settles O60: the code names the operand, and each operand reads as its lemma says. -/
theorem operandsReadTheirCodes : Obligations.OperandsReadTheirCodes := by
  intro s f
  refine ⟨?_, fun x hx => ?_, fun a index n connects => connects.busRead a, by simp, by simp⟩
  · have source : ∀ o : Source, f.source.code = o.code → f.source = o := fun o => Source.eq_of_code
    exact ⟨fun h => by rw [State.srcValue_eq, State.srcRead, source .pc h],
      fun h => State.srcValue_of_local (source (.mem .r1) h) rfl rfl,
      fun h => State.srcValue_of_local (source (.mem .r2) h) rfl rfl,
      fun h => State.srcValue_of_local (source (.mem .r3) h) rfl rfl,
      fun h => by rw [State.srcValue_eq, State.srcRead, source .imm h],
      fun h => State.srcValue_of_reg (source (.reg .r1) h) rfl,
      fun h => State.srcValue_of_reg (source (.reg .r2) h) rfl,
      fun h => State.srcValue_of_reg (source (.reg .r3) h) rfl,
      fun h => by rw [State.srcValue_eq, State.srcRead, source .flags h],
      fun h => State.srcValue_of_bus (source (.mem .r4) h) rfl rfl,
      fun h => State.srcValue_of_bus (source (.mem .r5) h) rfl rfl,
      fun h => State.srcValue_of_bus (source (.mem .r6) h) rfl rfl,
      fun h => by rw [State.srcValue_eq, State.srcRead, source .ih h],
      fun h => State.srcValue_of_reg (source (.reg .r4) h) rfl,
      fun h => State.srcValue_of_reg (source (.reg .r5) h) rfl,
      fun h => State.srcValue_of_reg (source (.reg .r6) h) rfl⟩
  · have dest : ∀ o : Dest, f.dest.code = o.code → f.dest = o := fun o => Dest.eq_of_code
    exact ⟨fun h => by simp only [State.dstValue_eq, State.dstRead, dest .pc h, State.srcRead_core],
      fun h => State.dstValue_of_local (dest (.mem .r1) h) rfl rfl hx,
      fun h => State.dstValue_of_local (dest (.mem .r2) h) rfl rfl hx,
      fun h => State.dstValue_of_local (dest (.mem .r3) h) rfl rfl hx,
      fun h => by simp only [State.dstValue_eq, State.dstRead, dest .flags4 h, State.srcRead_core],
      fun h => State.dstValue_of_reg (dest (.reg .r1) h),
      fun h => State.dstValue_of_reg (dest (.reg .r2) h),
      fun h => State.dstValue_of_reg (dest (.reg .r3) h),
      fun h => by simp only [State.dstValue_eq, State.dstRead, dest .flags h, State.srcRead_core],
      fun h => State.dstValue_of_bus (dest (.mem .r4) h) rfl rfl hx,
      fun h => State.dstValue_of_bus (dest (.mem .r5) h) rfl rfl hx,
      fun h => State.dstValue_of_bus (dest (.mem .r6) h) rfl rfl hx,
      fun h => by simp only [State.dstValue_eq, State.dstRead, dest .ih h, State.srcRead_dev],
      fun h => State.dstValue_of_reg (dest (.reg .r4) h),
      fun h => State.dstValue_of_reg (dest (.reg .r5) h),
      fun h => State.dstValue_of_reg (dest (.reg .r6) h)⟩

end Sys2Proof.Machine
end
